-- ==== Sys2Proof/Word.lean ====
section
/-!
DEFINITION. The words of the core's ports and registers (00_scope.md R10, R11): a command word and a
register word have 32 bits, an output byte has 8, the operand of SAMPLE and COEF has 16. Bit 0 is the
least significant bit of each.
-/

namespace Sys2Proof

/-- A command word or a read-register word: 32 bits (R10). -/
abbrev Word := BitVec 32

/-- An output byte: 8 bits (R10). -/
abbrev Byte := BitVec 8

/-- The operand of SAMPLE and COEF, the DATA field: 16 bits (R10, R90). -/
abbrev Data := BitVec 16

end Sys2Proof
end

