-- ==== Sys2Proof/Machine/Arith.lean ====
section
/-!
DEFINITION. The exact arithmetic of the spec's notation (00_scope.md R12 to R15) and the
variable-length integers of 44_entropy.md (R191, R192, R194). Everything is computed on `Nat`, `Int`
or an ordered field; nothing wraps.
-/

namespace Sys2Proof.Machine

/-- `bitlen(n)`: the number of bits of `n` in unsigned binary, 0 for 0 (R13). -/
def bitlen (n : Nat) : Nat := if n = 0 then 0 else n.log2 + 1

/-- `round_half_away(x) = sign(x) * floor(|x| + 1/2)` (R14), over every ordered field with floors: the
rationals of R14, and the reals of the host's samples (48_host_side.md R265). -/
def roundHalfAway {K : Type} [Field K] [LinearOrder K] [FloorRing K] (x : K) : Int := if x < 0 then -⌊|x| + 1 / 2⌋ else ⌊|x| + 1 / 2⌋

/-- `code_bits(c, L)`: the low `L` bits of `c`, most significant of them first (R15). -/
def codeBits (c : Nat) : Nat → List Bool
  | 0 => []
  | L + 1 => c.testBit L :: codeBits c L

/-- The integer whose binary digits, most significant first, are the given bits: what `code_bits`
was made from. -/
def bitsValue (bs : List Bool) : Nat := bs.foldl (fun acc b => 2 * acc + b.toNat) 0

/-- The category of a value, `cat(v) = bitlen(|v|)`, on the exact integer (R191). -/
def cat (v : Int) : Nat := bitlen v.natAbs

/-- The value bits of `v` as an integer below `2^cat(v)`: `v` itself when it is not negative,
`v + 2^cat(v) - 1` when it is (R192). -/
def vbits (v : Int) : Nat := if 0 ≤ v then v.toNat else (v + 2 ^ cat v - 1).toNat

/-- The value bits of `v` as they are emitted: `cat(v)` bits, none for 0 (R192). -/
def valueBits (v : Int) : List Bool := codeBits (vbits v) (cat v)

/-- The decoding law's reading of `L` value bits `b` (R194). The core never decodes: this is the
reference function for claims about what it emits. -/
def vliDecode (L b : Nat) : Int :=
  if L = 0 then 0 else if 2 ^ (L - 1) ≤ b then b else (b : Int) - 2 ^ L + 1

end Sys2Proof.Machine
end

