-- ==== Sys2Proof/Machine/Huffman.lean ====
section
/-!
DEFINITION. Huffman tables (44_entropy.md R203, R204, R207, R208): the canonical code assignment
from a code-length histogram and a symbol list, the lookup, and the well-formedness of the two lists.
-/

namespace Sys2Proof.Machine

/-- One table entry, `(code, len)`; `len` = 0 marks a symbol without a code (R204). -/
structure HuffCode where
  code : Nat
  len : Nat
  deriving DecidableEq, Repr

/-- The bits of an entry, most significant first (R196, R200). -/
def HuffCode.bits (h : HuffCode) : List Bool := codeBits h.code h.len

/-- The codes of one length `L`: consecutive integers from `code` on, in the order of the symbol
list (R207). -/
def levelCodes (L code : Nat) : List Nat → List (Nat × HuffCode)
  | [] => []
  | sym :: rest => (sym, ⟨code, L⟩) :: levelCodes L (code + 1) rest

/-- `BuildTable` as the list of its assignments, in order. `L` is the length now being assigned and
`code` its first code; the next length starts at twice the value after this length's last code
(R207). -/
def codeList (L code : Nat) : List Nat → List Nat → List (Nat × HuffCode)
  | [], _ => []
  | n :: bits, vals =>
    levelCodes L code (vals.take n) ++ codeList (L + 1) (2 * (code + n)) bits (vals.drop n)

/-- `T[s]` after the assignments: the last one made to `s`, or `(0, 0)` (R207). A well-formed list
assigns each symbol at most once (R208). -/
def tableEntry (codes : List (Nat × HuffCode)) (s : Nat) : HuffCode :=
  codes.foldl (fun e c => if c.1 = s then c.2 else e) ⟨0, 0⟩

/-- The table of a histogram `BITS[1..16]` and a symbol list `HUFFVAL` (R207). -/
def buildTable (bits vals : List Nat) (s : Nat) : HuffCode := tableEntry (codeList 1 0 bits vals) s

/-- Every symbol of the DC table that the coder can look up: categories 0 to 11 (R208). -/
def dcSymbols : List Nat := List.range 12

/-- Every symbol of the AC table that the coder can look up: EOB, ZRL, and run 0..15 with
category 1..10 (R201 (e), R208). -/
def acSymbols : List Nat :=
  0x00 :: 0xF0 :: (List.range 16).flatMap fun r => (List.range 10).map fun c => r * 16 + (c + 1)

/-- The histogram has the 16 lengths and counts the symbol list (R208). -/
def histogramOk (bits vals : List Nat) : Bool := bits.length == 16 && bits.sum == vals.length

/-- No symbol is repeated and each is below `nsym` (R208). -/
def symbolsOk (nsym : Nat) (vals : List Nat) : Bool :=
  decide vals.Nodup && vals.all fun s => decide (s < nsym)

/-- Every assigned code is below `2^L`, so the code is prefix-free, and none consists of all 1 bits
(R208). -/
def codesOk (bits vals : List Nat) : Bool :=
  (codeList 1 0 bits vals).all fun c => decide (c.2.code + 1 < 2 ^ c.2.len)

/-- Every symbol the coder can look up has a code (R208). -/
def symbolsCoded (needed bits vals : List Nat) : Bool :=
  needed.all fun s => decide (1 ≤ (buildTable bits vals s).len)

/-- The well-formedness of one Huffman table (R208). -/
def huffmanOk (nsym : Nat) (needed bits vals : List Nat) : Bool :=
  histogramOk bits vals && symbolsOk nsym vals && codesOk bits vals && symbolsCoded needed bits vals

end Sys2Proof.Machine
end

