-- ==== Sys2Proof/Machine/Transform.lean ====
section
/-!
DEFINITION. The transform stage (41_transform.md). The document fixes it to a tolerance, not to one
rounding, so the machine's transform is a function of the configuration (Config.lean) about which
only `DctWithinTol` is known (R142, R143). This file gives the reference semantics the tolerance is
measured against (R140, over the reals, for statements only), the separable form (R145), and the
spec's informative fixed-point configuration (R147), which can be evaluated.
-/

namespace Sys2Proof.Machine

/-- Natural order: element `(row, col)` of a block stands at index `8*row + col` (R141). -/
def natIndex (row col : Fin 8) : Fin 64 := ⟨8 * row.val + col.val, by omega⟩

/-- The row of a natural-order index: y of a sample, v of a coefficient (R141). -/
def rowOf (i : Fin 64) : Fin 8 := ⟨i.val / 8, by omega⟩

/-- The column of a natural-order index: x of a sample, u of a coefficient (R141). -/
def colOf (i : Fin 64) : Fin 8 := ⟨i.val % 8, by omega⟩

/-- The real value of a SAMPLE operand, `sext_16(DATA) / 2^SAMPLE_FRAC_BITS` (R93). -/
def sampleValue (fracBits : Nat) (d : Data) : ℚ := (d.toInt : ℚ) / 2 ^ fracBits

/-- `C(0) = 1/√2`, `C(k) = 1` for k > 0 (R140). -/
noncomputable def dctScale (k : Fin 8) : ℝ := if k = 0 then 1 / √2 else 1

/-- The direct-form 2D DCT-II, the reference semantics: `F(u,v)` of the block `f`, whose sample
f(x,y) is element `8*y + x` (R140, R141). -/
noncomputable def dctDirect (f : Fin 64 → ℚ) (u v : Fin 8) : ℝ :=
  (1 / 4) * dctScale u * dctScale v *
    ∑ x : Fin 8, ∑ y : Fin 8, (f (natIndex y x) : ℝ) *
      Real.cos ((2 * x.val + 1) * u.val * Real.pi / 16) *
      Real.cos ((2 * y.val + 1) * v.val * Real.pi / 16)

/-- `M[k][n] = (C(k)/2) · cos((2n+1)kπ/16)` (R145). -/
noncomputable def dctBasis (k n : Fin 8) : ℝ :=
  dctScale k / 2 * Real.cos ((2 * n.val + 1) * k.val * Real.pi / 16)

/-- The separable form: a row pass `T[y][u]` and a column pass over it (R145). -/
noncomputable def dctSeparable (f : Fin 64 → ℚ) (u v : Fin 8) : ℝ :=
  ∑ y : Fin 8, dctBasis v y * ∑ x : Fin 8, dctBasis u x * (f (natIndex y x) : ℝ)

/-- The tolerance, the whole of what the core promises about its transform: for every block of
SAMPLE operands and every index i = 8v + u, coefficient `c[i] / 2^COEF_FRAC_BITS` lies within
`DCT_TOL` of `F(u,v)` (R143). -/
def DctWithinTol (sampleFracBits coefFracBits : Nat) (tol : ℚ)
    (dct : (Fin 64 → ℚ) → Fin 64 → Int) : Prop :=
  ∀ (d : Fin 64 → Data) (i : Fin 64),
    |(dct (fun j => sampleValue sampleFracBits (d j)) i : ℝ) / 2 ^ coefFracBits
      - dctDirect (fun j => sampleValue sampleFracBits (d j)) (colOf i) (rowOf i)| ≤ (tol : ℝ)

/-- The stage's output register: 32 bits, signed (R144). The integer it holds is read back by `toInt`;
one that does not fit wraps, which no conforming transform's does (log 23). -/
def stageRegister (c : Int) : BitVec 32 := BitVec.ofInt 32 c

/-! The informative fixed-point configuration of R147. -/

/-- `cos(jπ/16) / 2` for j in 0..8, rounded to the nearest multiple of 2^−24 and counted in them. -/
def halfCosQuarter : Nat → Int
  | 0 => 8388608
  | 1 => 8227423
  | 2 => 7750063
  | 3 => 6974873
  | 4 => 5931642
  | 5 => 4660461
  | 6 => 3210181
  | 7 => 1636536
  | _ => 0

/-- The same for j in 0..16, by cos(π − t) = −cos t. -/
def halfCosHalf (j : Nat) : Int := if j ≤ 8 then halfCosQuarter j else -halfCosQuarter (16 - j)

/-- The same for every j, by cos(2π − t) = cos t and the period 2π. -/
def halfCosFixed (j : Nat) : Int :=
  if j % 32 ≤ 16 then halfCosHalf (j % 32) else halfCosHalf (32 - j % 32)

/-- `M[k][n]` rounded to the nearest multiple of 2^−24, counted in them; for k = 0 the value is
1/(2√2) = cos(4π/16)/2 (R147). -/
def dctBasisFixed (k n : Fin 8) : Int :=
  if k = 0 then halfCosFixed 4 else halfCosFixed ((2 * n.val + 1) * k.val)

/-- The row pass of R147: `T[y][u]` rounded to the nearest multiple of 2^−20, counted in them.
The spec does not say how a tie rounds; any choice keeps the bound, this one rounds away from 0. -/
def dctRowFixed (f : Fin 64 → ℚ) (y u : Fin 8) : Int :=
  roundHalfAway ((∑ x : Fin 8, (dctBasisFixed u x : ℚ) * f (natIndex y x)) / 2 ^ 24 * 2 ^ 20)

/-- The transform of R147, with `COEF_FRAC_BITS` = 16: each output rounded to the nearest multiple
of 2^−16. -/
def dctFixed (f : Fin 64 → ℚ) (i : Fin 64) : Int :=
  roundHalfAway ((∑ y : Fin 8, (dctBasisFixed (rowOf i) y : ℚ) * dctRowFixed f y (colOf i))
    / 2 ^ 44 * 2 ^ 16)

end Sys2Proof.Machine
end

