-- ==== Sys2Proof/Machine/TransformFixed.lean ====
section
/-!
DEFINITION. The fixed-point configuration of R147 meets the tolerance of R143 with the default
parameters. The proof follows the spec's own error bound: each constant is off by at most 2^−25, each
row-pass result by at most 2^−21, each output by at most 2^−17. Config.lean needs it to know that a
conforming transform exists; nothing in the machine depends on this particular one.
-/

namespace Sys2Proof.Machine

theorem roundHalfAway_error (x : ℚ) : |(roundHalfAway x : ℚ) - x| ≤ 1 / 2 := by
  have key : ∀ y : ℚ, |(⌊y + 1 / 2⌋ : ℚ) - y| ≤ 1 / 2 := fun y => by
    have h1 := Int.floor_le (y + 1 / 2)
    have h2 := Int.lt_floor_add_one (y + 1 / 2)
    rw [abs_le]; constructor <;> linarith
  unfold roundHalfAway
  split
  · next h =>
    have := key |x|
    rw [abs_of_neg h] at *
    rw [← abs_neg]; push_cast; convert this using 2; ring
  · next h =>
    have := key |x|
    rwa [abs_of_nonneg (not_lt.mp h)] at *

theorem half_angle_bounds {θ lo hi ylo yhi : ℝ} (hpos : 0 ≤ Real.cos θ)
    (h : ylo ≤ Real.cos (2 * θ) ∧ Real.cos (2 * θ) ≤ yhi)
    (hlo : lo ^ 2 ≤ (1 + ylo) / 2) (hhi : (1 + yhi) / 2 ≤ hi ^ 2) (hi0 : 0 ≤ hi) :
    lo ≤ Real.cos θ ∧ Real.cos θ ≤ hi := by
  have hsq : Real.cos θ ^ 2 = (1 + Real.cos (2 * θ)) / 2 := by rw [Real.cos_sq]; ring
  exact ⟨le_of_sq_le_sq (by rw [hsq]; linarith) hpos, le_of_sq_le_sq (by rw [hsq]; linarith) hi0⟩

theorem cos_sixteenth_nonneg {t : ℝ} (h0 : 0 ≤ t) (h8 : t ≤ 8) : 0 ≤ Real.cos (t * Real.pi / 16) :=
  Real.cos_nonneg_of_neg_pi_div_two_le_of_le (by nlinarith [Real.pi_pos]) (by nlinarith [Real.pi_pos])

theorem cos_four_sixteenths :
    (0.707106781186 : ℝ) ≤ Real.cos (4 * Real.pi / 16) ∧ Real.cos (4 * Real.pi / 16) ≤ 0.707106781187 :=
  half_angle_bounds (ylo := 0) (yhi := 0) (cos_sixteenth_nonneg (by norm_num) (by norm_num))
    (by rw [show 2 * (4 * Real.pi / 16) = Real.pi / 2 by ring, Real.cos_pi_div_two]; simp)
    (by norm_num) (by norm_num) (by norm_num)

theorem cos_two_sixteenths :
    (0.923879532511 : ℝ) ≤ Real.cos (2 * Real.pi / 16) ∧ Real.cos (2 * Real.pi / 16) ≤ 0.923879532512 :=
  half_angle_bounds (cos_sixteenth_nonneg (by norm_num) (by norm_num))
    (by rw [show 2 * (2 * Real.pi / 16) = 4 * Real.pi / 16 by ring]; exact cos_four_sixteenths)
    (by norm_num) (by norm_num) (by norm_num)

theorem cos_six_sixteenths :
    (0.382683432364 : ℝ) ≤ Real.cos (6 * Real.pi / 16) ∧ Real.cos (6 * Real.pi / 16) ≤ 0.382683432366 :=
  half_angle_bounds (ylo := -0.707106781187) (yhi := -0.707106781186)
    (cos_sixteenth_nonneg (by norm_num) (by norm_num))
    (by
      rw [show 2 * (6 * Real.pi / 16) = Real.pi - 4 * Real.pi / 16 by ring, Real.cos_pi_sub]
      have := cos_four_sixteenths
      constructor <;> linarith [this.1, this.2])
    (by norm_num) (by norm_num) (by norm_num)

theorem cos_one_sixteenth :
    (0.98078528040 : ℝ) ≤ Real.cos (1 * Real.pi / 16) ∧ Real.cos (1 * Real.pi / 16) ≤ 0.98078528041 :=
  half_angle_bounds (cos_sixteenth_nonneg (by norm_num) (by norm_num))
    (by rw [show 2 * (1 * Real.pi / 16) = 2 * Real.pi / 16 by ring]; exact cos_two_sixteenths)
    (by norm_num) (by norm_num) (by norm_num)

theorem cos_seven_sixteenths :
    (0.19509032201 : ℝ) ≤ Real.cos (7 * Real.pi / 16) ∧ Real.cos (7 * Real.pi / 16) ≤ 0.19509032202 :=
  half_angle_bounds (ylo := -0.923879532512) (yhi := -0.923879532511)
    (cos_sixteenth_nonneg (by norm_num) (by norm_num))
    (by
      rw [show 2 * (7 * Real.pi / 16) = Real.pi - 2 * Real.pi / 16 by ring, Real.cos_pi_sub]
      have := cos_two_sixteenths
      constructor <;> linarith [this.1, this.2])
    (by norm_num) (by norm_num) (by norm_num)

theorem cos_three_sixteenths :
    (0.83146961230 : ℝ) ≤ Real.cos (3 * Real.pi / 16) ∧ Real.cos (3 * Real.pi / 16) ≤ 0.83146961231 :=
  half_angle_bounds (cos_sixteenth_nonneg (by norm_num) (by norm_num))
    (by rw [show 2 * (3 * Real.pi / 16) = 6 * Real.pi / 16 by ring]; exact cos_six_sixteenths)
    (by norm_num) (by norm_num) (by norm_num)

theorem cos_five_sixteenths :
    (0.55557023300 : ℝ) ≤ Real.cos (5 * Real.pi / 16) ∧ Real.cos (5 * Real.pi / 16) ≤ 0.55557023304 :=
  half_angle_bounds (ylo := -0.382683432366) (yhi := -0.382683432364)
    (cos_sixteenth_nonneg (by norm_num) (by norm_num))
    (by
      rw [show 2 * (5 * Real.pi / 16) = Real.pi - 6 * Real.pi / 16 by ring, Real.cos_pi_sub]
      have := cos_six_sixteenths
      constructor <;> linarith [this.1, this.2])
    (by norm_num) (by norm_num) (by norm_num)

/-- The table of R147 for j in 0..8, each entry off by at most half a unit of 2^−24. -/
theorem halfCosQuarter_error (j : Nat) (hj : j ≤ 8) :
    |(halfCosQuarter j : ℝ) - Real.cos ((j : ℝ) * Real.pi / 16) * 2 ^ 23| ≤ 1 / 2 := by
  have h1 := cos_one_sixteenth
  have h2 := cos_two_sixteenths
  have h3 := cos_three_sixteenths
  have h4 := cos_four_sixteenths
  have h5 := cos_five_sixteenths
  have h6 := cos_six_sixteenths
  have h7 := cos_seven_sixteenths
  have h8 : Real.cos (8 * Real.pi / 16) = 0 := by
    rw [show 8 * Real.pi / 16 = Real.pi / 2 by ring, Real.cos_pi_div_two]
  rw [abs_le]
  interval_cases j <;> simp only [halfCosQuarter] <;> push_cast
  · simp; norm_num
  · constructor <;> linarith [h1.1, h1.2]
  · constructor <;> linarith [h2.1, h2.2]
  · constructor <;> linarith [h3.1, h3.2]
  · constructor <;> linarith [h4.1, h4.2]
  · constructor <;> linarith [h5.1, h5.2]
  · constructor <;> linarith [h6.1, h6.2]
  · constructor <;> linarith [h7.1, h7.2]
  · rw [h8]; constructor <;> norm_num

theorem halfCosHalf_error (j : Nat) (hj : j ≤ 16) :
    |(halfCosHalf j : ℝ) - Real.cos ((j : ℝ) * Real.pi / 16) * 2 ^ 23| ≤ 1 / 2 := by
  unfold halfCosHalf
  split
  · next h => exact halfCosQuarter_error j h
  · next h =>
    have := halfCosQuarter_error (16 - j) (by omega)
    rw [show ((16 - j : ℕ) : ℝ) * Real.pi / 16 = Real.pi - (j : ℝ) * Real.pi / 16 by
      rw [Nat.cast_sub hj]; push_cast; ring, Real.cos_pi_sub] at this
    rw [← abs_neg]; push_cast
    convert this using 2; ring

theorem halfCosFixed_error (j : Nat) :
    |(halfCosFixed j : ℝ) - Real.cos ((j : ℝ) * Real.pi / 16) * 2 ^ 23| ≤ 1 / 2 := by
  have hper : Real.cos ((j : ℝ) * Real.pi / 16) = Real.cos (((j % 32 : ℕ) : ℝ) * Real.pi / 16) := by
    rw [← Real.cos_add_nat_mul_two_pi (((j % 32 : ℕ) : ℝ) * Real.pi / 16) (j / 32)]
    congr 1
    have : (j : ℝ) = ((j % 32 : ℕ) : ℝ) + 32 * ((j / 32 : ℕ) : ℝ) := by
      exact_mod_cast (Nat.mod_add_div j 32).symm
    rw [this]; ring
  rw [hper]
  have hlt := Nat.mod_lt j (show 32 > 0 by norm_num)
  unfold halfCosFixed
  split
  · next h => exact halfCosHalf_error _ h
  · next h =>
    have := halfCosHalf_error (32 - j % 32) (by omega)
    rwa [show ((32 - j % 32 : ℕ) : ℝ) * Real.pi / 16 = 2 * Real.pi - ((j % 32 : ℕ) : ℝ) * Real.pi / 16 by
      rw [Nat.cast_sub hlt.le]; push_cast; ring, Real.cos_two_pi_sub] at this

/-- Each constant of R147 is the constant of R145 to within 2^−25. -/
theorem dctBasisFixed_error (k n : Fin 8) :
    |(dctBasisFixed k n : ℝ) / 2 ^ 24 - dctBasis k n| ≤ 1 / 2 ^ 25 := by
  have main : ∀ (m : Nat) (b : ℝ), b = Real.cos ((m : ℝ) * Real.pi / 16) / 2 →
      |(halfCosFixed m : ℝ) / 2 ^ 24 - b| ≤ 1 / 2 ^ 25 := by
    intro m b hb
    have := halfCosFixed_error m
    rw [abs_le] at this ⊢
    rw [hb]
    constructor <;> linarith [this.1, this.2]
  unfold dctBasisFixed dctBasis dctScale
  split
  · next h =>
    apply main
    subst h
    have : Real.cos (((4 : ℕ) : ℝ) * Real.pi / 16) = √2 / 2 := by
      rw [show ((4 : ℕ) : ℝ) * Real.pi / 16 = Real.pi / 4 by push_cast; ring, Real.cos_pi_div_four]
    rw [this]
    have h2 : √2 * √2 = (2 : ℝ) := Real.mul_self_sqrt (by norm_num)
    have h0 : √(2 : ℝ) ≠ 0 := by positivity
    simp
    field_simp
    linarith
  · next h =>
    apply main
    push_cast
    ring_nf

theorem dctBasis_bound (k n : Fin 8) : |dctBasis k n| ≤ 1 / 2 := by
  unfold dctBasis
  rw [abs_mul]
  have hc := Real.abs_cos_le_one ((2 * (n.val : ℝ) + 1) * (k.val : ℝ) * Real.pi / 16)
  have hs : |dctScale k / 2| ≤ 1 / 2 := by
    unfold dctScale
    split
    · rw [abs_of_nonneg (by positivity)]
      have : 1 / √2 ≤ (1 : ℝ) := by
        rw [div_le_one (by positivity)]
        exact Real.one_le_sqrt.mpr (by norm_num)
      linarith
    · norm_num
  calc |dctScale k / 2| * |_| ≤ 1 / 2 * 1 := mul_le_mul hs hc (abs_nonneg _) (by norm_num)
    _ = 1 / 2 := by norm_num

/-- The direct form is the separable form (R145). -/
theorem dctDirect_eq_sum (f : Fin 64 → ℚ) (u v : Fin 8) :
    dctDirect f u v = ∑ y : Fin 8, dctBasis v y * ∑ x : Fin 8, dctBasis u x * (f (natIndex y x) : ℝ) := by
  unfold dctDirect dctBasis
  rw [Finset.sum_comm, Finset.mul_sum]
  refine Finset.sum_congr rfl fun y _ => ?_
  rw [Finset.mul_sum, Finset.mul_sum]
  refine Finset.sum_congr rfl fun x _ => ?_
  ring

theorem natIndex_row_col (i : Fin 64) : natIndex (rowOf i) (colOf i) = i := by
  ext; simp only [natIndex, rowOf, colOf]; omega

theorem sampleValue_bound (d : Data) : |(sampleValue 8 d : ℝ)| ≤ 128 := by
  have h1 : -32768 ≤ d.toInt := by have := BitVec.le_toInt d; simpa using this
  have h2 : d.toInt ≤ 32767 := by have := BitVec.toInt_lt (x := d); simp at this; omega
  unfold sampleValue
  have h1' : (-32768 : ℝ) ≤ (d.toInt : ℝ) := by exact_mod_cast h1
  have h2' : (d.toInt : ℝ) ≤ 32767 := by exact_mod_cast h2
  push_cast
  rw [abs_le]
  constructor <;> linarith

/-- A sum of eight products, each factor known to within a bound: the shape of both passes. -/
theorem sum_eight_error {a a' b b' : Fin 8 → ℝ} {A B ea eb : ℝ}
    (ha : ∀ i, |a' i - a i| ≤ ea) (hA : ∀ i, |a i| ≤ A) (hb : ∀ i, |b' i - b i| ≤ eb)
    (hB : ∀ i, |b i| ≤ B) (hea : 0 ≤ ea) :
    |∑ i, a' i * b' i - ∑ i, a i * b i| ≤ 8 * (ea * (B + eb) + A * eb) := by
  rw [← Finset.sum_sub_distrib]
  calc |∑ i, (a' i * b' i - a i * b i)| ≤ ∑ i : Fin 8, |a' i * b' i - a i * b i| :=
        Finset.abs_sum_le_sum_abs _ _
    _ ≤ ∑ _i : Fin 8, (ea * (B + eb) + A * eb) := by
        refine Finset.sum_le_sum fun i _ => ?_
        have e : a' i * b' i - a i * b i = (a' i - a i) * b' i + a i * (b' i - b i) := by ring
        have hb' : |b' i| ≤ B + eb := by
          calc |b' i| = |b i + (b' i - b i)| := by ring_nf
            _ ≤ |b i| + |b' i - b i| := abs_add_le _ _
            _ ≤ B + eb := add_le_add (hB i) (hb i)
        rw [e]
        calc _ ≤ |(a' i - a i) * b' i| + |a i * (b' i - b i)| := abs_add_le _ _
          _ = |a' i - a i| * |b' i| + |a i| * |b' i - b i| := by rw [abs_mul, abs_mul]
          _ ≤ ea * (B + eb) + A * eb :=
            add_le_add (mul_le_mul (ha i) hb' (abs_nonneg _) hea)
              (mul_le_mul (hA i) (hb i) (abs_nonneg _) ((abs_nonneg _).trans (hA i)))
    _ = 8 * (ea * (B + eb) + A * eb) := by simp; ring

/-- The spec's informative fixed-point transform conforms with the default parameters (R147). -/
theorem dctFixed_withinTol : DctWithinTol 8 16 (1 / 1000) dctFixed := by
  intro d i
  set f : Fin 64 → ℚ := fun j => sampleValue 8 (d j) with hf
  have hfb : ∀ j, |(f j : ℝ)| ≤ 128 := fun j => sampleValue_bound (d j)
  have hround : ∀ x : ℚ, |(roundHalfAway x : ℝ) - (x : ℝ)| ≤ 1 / 2 := fun x => by
    have := (Rat.cast_le (K := ℝ)).mpr (roundHalfAway_error x)
    push_cast at this
    simpa using this
  -- the row pass
  have hrow : ∀ y u : Fin 8,
      |(dctRowFixed f y u : ℝ) / 2 ^ 20 - ∑ x : Fin 8, dctBasis u x * (f (natIndex y x) : ℝ)|
        ≤ 1 / 32000 := by
    intro y u
    have hs := sum_eight_error (a := fun x => dctBasis u x)
      (a' := fun x => (dctBasisFixed u x : ℝ) / 2 ^ 24) (b := fun x => (f (natIndex y x) : ℝ))
      (b' := fun x => (f (natIndex y x) : ℝ)) (fun x => dctBasisFixed_error u x)
      (fun x => dctBasis_bound u x) (eb := 0) (fun x => by simp) (fun x => hfb _) (by norm_num)
    have hr := hround ((∑ x : Fin 8, (dctBasisFixed u x : ℚ) * f (natIndex y x)) / 2 ^ 24 * 2 ^ 20)
    have he : (((∑ x : Fin 8, (dctBasisFixed u x : ℚ) * f (natIndex y x)) / 2 ^ 24 * 2 ^ 20 : ℚ) : ℝ)
        = (∑ x : Fin 8, (dctBasisFixed u x : ℝ) / 2 ^ 24 * (f (natIndex y x) : ℝ)) * 2 ^ 20 := by
      push_cast
      rw [Finset.sum_div]
      congr 1
      exact Finset.sum_congr rfl fun x _ => by ring
    rw [he] at hr
    rw [abs_le] at hs hr ⊢
    unfold dctRowFixed
    constructor <;> linarith [hs.1, hs.2, hr.1, hr.2]
  have hrowB : ∀ y u : Fin 8, |∑ x : Fin 8, dctBasis u x * (f (natIndex y x) : ℝ)| ≤ 512 := by
    intro y u
    calc _ ≤ ∑ x : Fin 8, |dctBasis u x * (f (natIndex y x) : ℝ)| := Finset.abs_sum_le_sum_abs _ _
      _ ≤ ∑ _x : Fin 8, (64 : ℝ) := Finset.sum_le_sum fun x _ => by
          rw [abs_mul]
          nlinarith [dctBasis_bound u x, hfb (natIndex y x), abs_nonneg (dctBasis u x),
            abs_nonneg (f (natIndex y x) : ℝ)]
      _ = 512 := by simp; norm_num
  -- the column pass
  have hs := sum_eight_error (a := fun y => dctBasis (rowOf i) y)
    (a' := fun y => (dctBasisFixed (rowOf i) y : ℝ) / 2 ^ 24)
    (b := fun y => ∑ x : Fin 8, dctBasis (colOf i) x * (f (natIndex y x) : ℝ))
    (b' := fun y => (dctRowFixed f y (colOf i) : ℝ) / 2 ^ 20)
    (fun y => dctBasisFixed_error _ y) (fun y => dctBasis_bound _ y)
    (fun y => hrow y _) (fun y => hrowB y _) (by norm_num)
  have hr := hround ((∑ y : Fin 8, (dctBasisFixed (rowOf i) y : ℚ) * dctRowFixed f y (colOf i))
    / 2 ^ 44 * 2 ^ 16)
  have he : (((∑ y : Fin 8, (dctBasisFixed (rowOf i) y : ℚ) * dctRowFixed f y (colOf i))
      / 2 ^ 44 * 2 ^ 16 : ℚ) : ℝ)
      = (∑ y : Fin 8, (dctBasisFixed (rowOf i) y : ℝ) / 2 ^ 24
          * ((dctRowFixed f y (colOf i) : ℝ) / 2 ^ 20)) * 2 ^ 16 := by
    push_cast
    rw [Finset.sum_div]
    congr 1
    exact Finset.sum_congr rfl fun y _ => by ring
  rw [he] at hr
  rw [dctDirect_eq_sum]
  rw [abs_le] at hs hr ⊢
  unfold dctFixed
  push_cast
  constructor <;> linarith [hs.1, hs.2, hr.1, hr.2]

end Sys2Proof.Machine
end

