-- ==== Sys2Proof/Config.lean ====
section
/-!
DEFINITION. The implementation parameters (00_scope.md R9), the configuration of the core that the
machine is, and the free values. No parameter changes while the core runs (R335): the configuration
is a constant, not state.
-/

namespace Sys2Proof

open Machine

/-- The parameters of 00_scope.md R9, and the four open fields of the host's APP0 segment
(48_host_side.md R274). -/
structure Config where
  /-- `SAMPLE_FRAC_BITS`. -/
  sampleFracBits : Nat
  /-- `COEF_FRAC_BITS`, at least 10. -/
  coefFracBits : Nat
  /-- `DCT_TOL`. -/
  dctTol : ℚ
  /-- `DCT`, the function the transform stage computes (R142). -/
  dct : (Fin 64 → ℚ) → Fin 64 → Int
  /-- `QT[0..63]`, natural order. -/
  qt : List Nat
  /-- `BITS_DC[1..16]`. -/
  bitsDC : List Nat
  /-- `HUFFVAL_DC`. -/
  huffvalDC : List Nat
  /-- `BITS_AC[1..16]`. -/
  bitsAC : List Nat
  /-- `HUFFVAL_AC`. -/
  huffvalAC : List Nat
  /-- `ACC_WIDTH`, at least 8; not observable (R248). -/
  accWidth : Nat
  /-- `OUT_FIFO_DEPTH`, observable only as flow control (R63). -/
  outFifoDepth : Nat
  /-- `ID_VALUE`. -/
  idValue : Word
  /-- `JFIF_VERSION`, a parameter of the host (R274). -/
  jfifVersion : BitVec 16
  /-- `JFIF_UNITS`, a parameter of the host (R274). -/
  jfifUnits : BitVec 8
  /-- `JFIF_XDENSITY`, a parameter of the host (R274). -/
  jfifXDensity : BitVec 16
  /-- `JFIF_YDENSITY`, a parameter of the host (R274). -/
  jfifYDensity : BitVec 16

/-- The divisor `QT[i]` (R160); 0, an ill-formed divisor, where the list is too short. -/
def Config.qtAt (cfg : Config) (i : Fin 64) : Nat := cfg.qt.getD i.val 0

/-- `DCHUF[s]`, computed from the parameters the container transmits (R204). -/
def Config.dchuf (cfg : Config) (s : Nat) : HuffCode := buildTable cfg.bitsDC cfg.huffvalDC s

/-- `ACHUF[s]`, computed from the parameters the container transmits (R204). -/
def Config.achuf (cfg : Config) (s : Nat) : HuffCode := buildTable cfg.bitsAC cfg.huffvalAC s

/-- The configuration's transform meets the tolerance (R143): the only thing a claim may use of it. -/
def Config.DctWithinTol (cfg : Config) : Prop :=
  Machine.DctWithinTol cfg.sampleFracBits cfg.coefFracBits cfg.dctTol cfg.dct

/-- A transform that meets the tolerance for the default `SAMPLE_FRAC_BITS`, `COEF_FRAC_BITS` and
`DCT_TOL` (R142, R143). -/
structure ConformingDct where
  fn : (Fin 64 → ℚ) → Fin 64 → Int
  within : DctWithinTol 8 16 (1 / 1000) fn

/-- One conforming transform exists: the informative one of R147. It is here only so that the free
value below has a type with an element. -/
@[reducible] def fixedDct : Inhabited ConformingDct := ⟨⟨dctFixed, dctFixed_withinTol⟩⟩

/-- FREE VALUE (log 2): the core's transform. `DCT` is OPEN; nothing is known of it but that it
conforms, which its type says (R9, R142, R143, 93_implementation_defined.md M11). -/
opaque Config.dctChoice [Inhabited ConformingDct] : ConformingDct

/-- FREE VALUE (log 3): whether the core holds `cmd_ready` at 1 while output bytes wait, one draw for
each step (R63, M10). It is a function of the step's number alone, never of the command (R63). -/
opaque Config.readyDraw : Nat → Bool

/-- FREE VALUE (log 4): for how many steps an accepted command keeps STATUS.BUSY at 1 after the
output has been delivered; finite, as R51 says (M9). -/
opaque Config.workDraw : Nat → Nat

/-- FREE VALUE (log 5): what a register read shows while the core is not quiescent, one draw for each
step and read address (R67, M8). -/
opaque Config.readDraw : Nat → BitVec 3 → Word

/-- OPEN parameter (log 6): `OUT_FIFO_DEPTH` (R9, R63, M14). -/
opaque Config.outFifoDepthChoice : Nat

/-- OPEN parameter (log 6): `JFIF_VERSION` (R274, M24). -/
opaque Config.jfifVersionChoice : BitVec 16

/-- OPEN parameter (log 6): `JFIF_UNITS` (R274, M24). -/
opaque Config.jfifUnitsChoice : BitVec 8

/-- OPEN parameter (log 6): `JFIF_XDENSITY` (R274, M24). -/
opaque Config.jfifXDensityChoice : BitVec 16

/-- OPEN parameter (log 6): `JFIF_YDENSITY` (R274, M24). -/
opaque Config.jfifYDensityChoice : BitVec 16

/-- The configuration of the core: the default of every parameter of R9, and the free values above
for the open ones. -/
def Config.core : Config where
  sampleFracBits := 8
  coefFracBits := 16
  dctTol := 1 / 1000
  dct := (@Config.dctChoice fixedDct).fn
  qt := defaultQt
  bitsDC := defaultBitsDC
  huffvalDC := defaultHuffvalDC
  bitsAC := defaultBitsAC
  huffvalAC := defaultHuffvalAC
  accWidth := 32
  outFifoDepth := Config.outFifoDepthChoice
  idValue := defaultIdValue
  jfifVersion := Config.jfifVersionChoice
  jfifUnits := Config.jfifUnitsChoice
  jfifXDensity := Config.jfifXDensityChoice
  jfifYDensity := Config.jfifYDensityChoice

/-- The core's transform conforms, whatever it is. -/
theorem Config.core_dctWithinTol : Config.core.DctWithinTol := (@Config.dctChoice fixedDct).within

end Sys2Proof
end

