-- ==== Sys2Proof/Syntax.lean ====
section
/-!
DEFINITION. The commands of the core: the five rows of spec/opcode_table.json, one constructor each
(30_encoding.md R91). SAMPLE and COEF carry their DATA field; the other three have no operand (R95).
An illegal word is not a command: the decoder rejects it by name (Decode.lean, R96).
-/

namespace Sys2Proof

/-- The legal commands (R91, R96). -/
inductive Instr where
  /-- NOP, opcode 0x0 (R111). -/
  | nop
  /-- START, opcode 0x1 (R112). -/
  | start
  /-- SAMPLE, opcode 0x2: one luminance sample of the current block (R114). -/
  | sample (data : Data)
  /-- COEF, opcode 0x3: one quantized coefficient of the current block (R115). -/
  | coef (data : Data)
  /-- FLUSH, opcode 0x4 (R118). -/
  | flush
  deriving DecidableEq, Repr

end Sys2Proof
end

