-- ==== Sys2Proof/WellFormed.lean ====
section
/-!
DEFINITION. What is well formed: a command (30_encoding.md R92 to R94), a command word (R92), and a
configuration (42_quantizer.md R163, R165; 44_entropy.md R208; 00_scope.md R9; 41_transform.md R144). A term that fails its
check is refused before the machine exists; the machine's own configuration passes.
-/

namespace Sys2Proof

open Machine

/-- A command word is legal: opcode 0, 1 or 4 with every other bit 0, or opcode 2 or 3 with bits
[27:16] 0 (R92). -/
def legalWord (w : Word) : Bool :=
  let opc := w.extractLsb' 28 4
  (decide (opc = 0x0 ∨ opc = 0x1 ∨ opc = 0x4) && decide (w.extractLsb' 0 28 = 0)) ||
  (decide (opc = 0x2 ∨ opc = 0x3) && decide (w.extractLsb' 16 12 = 0))

/-- A command as a term is well formed whatever its operand: every 16-bit DATA value is a legal
sample (R93) and a legal coefficient operand (R94), and no other command has an operand (R95). What
is ill formed is a word (`legalWord`) or an assembly line (Machine/Assembler.lean). -/
def Instr.WellFormed : Instr → Bool
  | .nop => true
  | .start => true
  | .sample _ => true
  | .coef _ => true
  | .flush => true

/-- The quantization table has 64 divisors, each in 1..255 (R163, R165, M15). -/
def Config.qtOk (cfg : Config) : Bool :=
  cfg.qt.length == 64 && cfg.qt.all fun q => decide (1 ≤ q ∧ q ≤ 255)

/-- The Huffman tables are well formed (R208, M16). DESIGN CHOICE (log 27): a DC symbol list may hold
12 to 15, as R208 allows, and those entries then have codes, where R204 says that they have none; the
coder never looks them up. -/
def Config.huffmanOk (cfg : Config) : Bool :=
  Machine.huffmanOk 16 dcSymbols cfg.bitsDC cfg.huffvalDC &&
  Machine.huffmanOk 256 acSymbols cfg.bitsAC cfg.huffvalAC

/-- The widths have their least values, `COEF_FRAC_BITS` ≥ 10 and `ACC_WIDTH` ≥ 8 (R9), and a
coefficient's 12 integer bits and fraction bits fit the 32-bit stage output register (41_transform.md
R144, log 23). -/
def Config.widthsOk (cfg : Config) : Bool :=
  decide (10 ≤ cfg.coefFracBits) && decide (12 + cfg.coefFracBits ≤ 32) && decide (8 ≤ cfg.accWidth)

/-- The decidable part of a configuration's well-formedness. `Config.DctWithinTol` is the rest. -/
def Config.WellFormed (cfg : Config) : Bool := cfg.qtOk && cfg.huffmanOk && cfg.widthsOk

end Sys2Proof
end

