-- ==== Sys2Proof/Decode.lean ====
section
/-!
DEFINITION. Decoding a command word and encoding a command (30_encoding.md R90 to R98). Decoding is
total, depends on the word alone, and rejects by name (R96); the encoder is written from the same
opcode map (R91).
-/

namespace Sys2Proof

/-- Why a word is no command: the three ways of R302. `Illegal(w)` of R96 with its reason. -/
inductive IllegalWord where
  /-- The opcode is 0x5 to 0xF (R98). -/
  | reservedOpcode
  /-- The RSVD field [27:16] is not 0 (R92). -/
  | reservedBits
  /-- NOP, START or FLUSH with a nonzero DATA field (R92). -/
  | nonzeroData
  deriving DecidableEq, Repr

/-- The OPC field, bits [31:28] (R90). -/
def opcField (w : Word) : BitVec 4 := w.extractLsb' 28 4

/-- The RSVD field, bits [27:16] (R90). -/
def rsvdField (w : Word) : BitVec 12 := w.extractLsb' 16 12

/-- The DATA field, bits [15:0] (R90). -/
def dataField (w : Word) : Data := w.extractLsb' 0 16

/-- The command an opcode stands for, given the DATA field (R91). -/
def opcodeMap (opc : BitVec 4) (data : Data) : Except IllegalWord Instr :=
  if opc = 0x0 then (if data = 0 then .ok .nop else .error .nonzeroData)
  else if opc = 0x1 then (if data = 0 then .ok .start else .error .nonzeroData)
  else if opc = 0x2 then .ok (.sample data)
  else if opc = 0x3 then .ok (.coef data)
  else if opc = 0x4 then (if data = 0 then .ok .flush else .error .nonzeroData)
  else .error .reservedOpcode

/-- The decoder (R92, R96, R98). -/
def decode (w : Word) : Except IllegalWord Instr :=
  if 0x5 ≤ opcField w then .error .reservedOpcode
  else if rsvdField w ≠ 0 then .error .reservedBits
  else opcodeMap (opcField w) (dataField w)

/-- A command word from its opcode and DATA, RSVD = 0 (R90). -/
def commandWord (opc : BitVec 4) (data : Data) : Word := opc ++ (0 : BitVec 12) ++ data

/-- The encoder (R91). -/
def encode : Instr → Word
  | .nop => commandWord 0x0 0
  | .start => commandWord 0x1 0
  | .sample d => commandWord 0x2 d
  | .coef d => commandWord 0x3 d
  | .flush => commandWord 0x4 0

/-- What the decoder reads from an instruction given as the opcode table numbers its bits. A command
is one 32-bit word (R97) that moves whole, so no byte order applies (R66); bits above `nbits` are 0. -/
def decodeTableWord (nbits w : Nat) : Option Instr :=
  match decode (BitVec.ofNat 32 (w % 2 ^ nbits)) with
  | .ok i => some i
  | .error _ => none

end Sys2Proof
end

