-- ==== Sys2Proof/Machine/State.lean ====
section
/-!
DEFINITION. The state of the machine. The first twelve fields are the core's architected state, the
record of 10_state.md R32, each with the spec's name, width and reset value; nothing else is
architected. The fields after them are the model's own: what the host offers and does at the ports,
what it has received, and the draws the spec leaves open. All of it is plain data. The core has no
general registers, no program counter and no addressable memory (R30, R31, R60).
-/

namespace Sys2Proof.Machine

/-- The image state `st`, 2 bits: IDLE=0, ACTIVE=1, DONE=2, ERROR=3 (R32, R33). -/
inductive ImageState where
  | idle
  | active
  | done
  | error
  deriving DecidableEq, Repr

/-- The error codes 0 to 7; codes 8 to 15 are never held (R34, R301, M4). -/
inductive ErrorCode where
  /-- 0, NONE. -/
  | noError
  /-- 1, ILLEGAL: an illegal word (R302). -/
  | illegal
  /-- 2, SEQ: SAMPLE, COEF or FLUSH when `st` is not ACTIVE (R304). -/
  | seq
  /-- 3, MIX: an element of the other kind inside a block (R305). -/
  | mix
  /-- 4, DC_CAT: the DC difference's category is above 11 (R306). -/
  | dcCat
  /-- 5, AC_CAT: an AC coefficient's category is above 10 (R306). -/
  | acCat
  /-- 6, EMPTY: FLUSH with no block encoded (R307). -/
  | empty
  /-- 7, PARTIAL: FLUSH inside a block (R307). -/
  | partialBlock
  deriving DecidableEq, Repr

/-- The kind of a block, `bmode`: SAMPLE=0, COEF=1 (R32, R35). -/
inductive BlockKind where
  | sample
  | coef
  deriving DecidableEq, Repr

/-- What the host does at the core's ports in one step (R61, R101, R330). The commands themselves
stand in `State.cmdq`. -/
inductive HostAct where
  /-- Give the command channel one turn: the word the host offers is taken if the core accepts (R62). -/
  | tryCommand
  /-- Send the next command as R343 asks of a sequential host: accept output bytes while any is
  presented, then let the command be taken. -/
  | sendCommand
  /-- Accept one output byte if one is presented (R64). -/
  | takeByte
  /-- Read the register at an address (R65; `READ` of R101). -/
  | readReg (addr : BitVec 3)
  /-- `DRAIN`: accept output bytes until none is left (R101). -/
  | drain
  /-- `WAITIDLE`: read STATUS until BUSY is 0 (R101). -/
  | waitIdle
  /-- One clock edge with `rst` = 1 (R330). -/
  | reset
  deriving DecidableEq, Repr

/-- The state: the architected record of R32, then the model's own fields. -/
structure State where
  /-- `st`: the image state (R33). -/
  st : ImageState
  /-- `errcode`: the first error of the image (R34). -/
  errcode : ErrorCode
  /-- `buf[0..63]`: the block buffer in natural order, 64 × 16 bits (R36). -/
  buf : Vector Data 64
  /-- `fill`: elements of the current block written so far, 6 bits (R35). -/
  fill : Fin 64
  /-- `bmode`: the kind of the current block (R35). -/
  bmode : BlockKind
  /-- `anyblk`: a block has been encoded in this image (R37). -/
  anyblk : Bool
  /-- `prevDC`: the previous block's quantized DC coefficient, int16 (R38). -/
  prevDC : BitVec 16
  /-- `pk_n`: the number of bits pending in the packer, 0..7 (R39). -/
  pkN : Fin 8
  /-- `pk_bits`: the pending bits, earliest most significant, 7 bits (R39). -/
  pkBits : BitVec 7
  /-- `byte_count`: bytes produced in this image, modulo 2^32 (R40). -/
  byteCount : BitVec 32
  /-- `block_count`: blocks encoded in this image, modulo 2^32 (R40). -/
  blockCount : BitVec 32
  /-- `outq`: bytes produced and not yet delivered, oldest first (R41). -/
  outq : List Byte
  /-- MODEL'S OWN: the words the host offers on the command channel, next first (R62). -/
  cmdq : List Word
  /-- MODEL'S OWN: what the host does at the ports, next first; when it is empty every step is the
  command channel's (R61). -/
  acts : List HostAct
  /-- MODEL'S OWN, a draw: the core would accept a command in this step although `outq` is not
  empty (R63). -/
  ready : Bool
  /-- MODEL'S OWN, a draw counted down: steps of internal work left, seen as BUSY (R51, R53). -/
  work : Nat
  /-- MODEL'S OWN: the number of steps taken, the argument of the draws. -/
  tick : Nat
  /-- MODEL'S OWN: the bytes the host has accepted on the output channel, oldest first (R64). -/
  rxBytes : List Byte
  /-- MODEL'S OWN: the last register value the host read (R65). -/
  rdData : Word
  deriving DecidableEq, Repr

/-- Why the machine stops. There is no reason: an error of the core is a state of the core, and every
command word, legal or not, has an effect (R110, R300, R303), so this type has no constructor and a
step never faults. Safe: the machine never stops where the hardware goes on. -/
inductive Fault where
  deriving DecidableEq, Repr

/-- Why a command has no meaning in this model. -/
inductive Refusal where
  /-- An arm of `exec` that is not modelled yet answers this with the row's mnemonic. No arm does:
  all five commands have their meaning. Safe where it is raised. -/
  | notModelled (mnemonic : String)
  deriving DecidableEq, Repr

/-- The machine right after reset: the reset column of R32 (R330). `buf` is unspecified there and
zeros here (log 1); the model's own fields start with nothing offered, done or received (log 7). -/
def State.reset : State where
  st := .idle
  errcode := .noError
  buf := Vector.replicate 64 0
  fill := 0
  bmode := .sample
  anyblk := false
  prevDC := 0
  pkN := 0
  pkBits := 0
  byteCount := 0
  blockCount := 0
  outq := []
  cmdq := []
  acts := []
  ready := false
  work := 0
  tick := 0
  rxBytes := []
  rdData := 0

end Sys2Proof.Machine
end

