-- ==== Sys2Proof/Machine/Entropy.lean ====
section
/-!
DEFINITION. The entropy coder (44_entropy.md): the predictive DC difference, the check that refuses a
block before any of its bits is produced, and the bit string of a block that passes. The pure stage:
it reads the zigzag block and `prevDC` and changes nothing.
-/

namespace Sys2Proof.Machine

/-- `diff = z[0] − prevDC`, exact in ℤ, never wrapped (R195). -/
def dcDiff (z : Fin 64 → Int) (prevDC : Int) : Int := z 0 - prevDC

/-- The AC coefficients `z[1..63]` in scan order (R182). -/
def acList (z : Fin 64 → Int) : List Int := (List.finRange 63).map fun k => z k.succ

/-- `EntropyCheck(z, prevDC)`: DC_CAT when the difference's category exceeds 11, else AC_CAT when some
AC coefficient's category exceeds 10, whatever its position; `none` is OK (R199). -/
def entropyCheck (z : Fin 64 → Int) (prevDC : Int) : Option ErrorCode :=
  if 11 < cat (dcDiff z prevDC) then some .dcCat
  else if (acList z).any (fun v => decide (10 < cat v)) then some .acCat
  else none

/-- The DC part: the Huffman code of the category of the difference, then its value bits (R196). -/
def dcBits (cfg : Config) (diff : Int) : List Bool := (cfg.dchuf (cat diff)).bits ++ valueBits diff

/-- `n` ZRL symbols 0xF0, no value bits (R198, R200). -/
def zrlBits (cfg : Config) (n : Nat) : List Bool := (List.replicate n (cfg.achuf 0xF0).bits).flatten

/-- One nonzero AC coefficient after `zeroRun` zeros: a ZRL for each 16 of them, then the symbol
`run*16 + category` with what is left of the run, then the value bits (R198, R200). -/
def acCoefBits (cfg : Config) (zeroRun : Nat) (v : Int) : List Bool :=
  zrlBits cfg (zeroRun / 16) ++ (cfg.achuf (zeroRun % 16 * 16 + cat v)).bits ++ valueBits v

/-- The AC part over the coefficients still to scan, with the counter `zeroRun`; EOB (symbol 0x00)
when a zero run is left at the end (R198, R200). -/
def acBits (cfg : Config) (zeroRun : Nat) : List Int → List Bool
  | [] => if 0 < zeroRun then (cfg.achuf 0x00).bits else []
  | v :: rest =>
    if v = 0 then acBits cfg (zeroRun + 1) rest
    else acCoefBits cfg zeroRun v ++ acBits cfg 0 rest

/-- `BlockBits(z, prevDC)`: the bit string of a block that passes the check (R200). -/
def blockBits (cfg : Config) (z : Fin 64 → Int) (prevDC : Int) : List Bool :=
  dcBits cfg (dcDiff z prevDC) ++ acBits cfg 0 (acList z)

end Sys2Proof.Machine
end

