-- ==== Sys2Proof/Machine/Quantizer.lean ====
section
/-!
DEFINITION. The quantizer stage (42_quantizer.md). It divides the transform's fixed-point value by
the natural-order divisor and rounds half away from zero, exactly and with no clamp (R161, R164).
-/

namespace Sys2Proof.Machine

/-- `Quant(c, qd)` on the fixed-point coefficient `c / 2^COEF_FRAC_BITS`: the integer nearest to
`c / (2^COEF_FRAC_BITS * qd)`, an exact half rounded away from zero (R161, R162). -/
def quant (coefFracBits : Nat) (c : Int) (qd : Nat) : Int :=
  let d := qd * 2 ^ coefFracBits
  let m := (2 * c.natAbs + d) / (2 * d)
  if 0 ≤ c then (m : Int) else -(m : Int)

end Sys2Proof.Machine
end

