-- ==== Sys2Proof/Machine/Operands.lean ====
section
/-!
DEFINITION. The operand forms of the command set: a 16-bit DATA field read as a sample (30_encoding.md
R93; `sampleValue` stands in Transform.lean, where the tolerance needs it) or as a quantized
coefficient (R94), and a whole block buffer read as the quantized block that enters the zigzag stage
(40_commands.md R116). There is no other operand form (R95).
-/

namespace Sys2Proof.Machine

/-- The coefficient operand of COEF: `sext_16(DATA)` (R94). -/
def coefValue (d : Data) : Int := d.toInt

/-- The command that writes one element of a block of the given kind (R113). -/
def elementInstr (kind : BlockKind) (d : Data) : Instr :=
  match kind with
  | .sample => .sample d
  | .coef => .coef d

/-- `f[i] = sext_16(buf[i]) / 2^SAMPLE_FRAC_BITS`, natural order (R116). -/
def blockSamples (cfg : Config) (buf : Vector Data 64) : Fin 64 → ℚ :=
  fun i => sampleValue cfg.sampleFracBits buf[i]

/-- What the transform stage hands to the quantizer: `c = DCT(f)`, each coefficient in its 32-bit output
register (41_transform.md R142, R144). -/
def stageOutput (cfg : Config) (f : Fin 64 → ℚ) : Fin 64 → BitVec 32 := fun i => stageRegister (cfg.dct f i)

/-- The quantized natural-order block `q`: for a SAMPLE block the transform, then the quantizer with
the natural-order divisors; for a COEF block the operands themselves (R116, R160, R167). -/
def quantizedBlock (cfg : Config) (kind : BlockKind) (buf : Vector Data 64) : Fin 64 → Int :=
  match kind with
  | .sample =>
    let c := stageOutput cfg (blockSamples cfg buf)
    fun i => quant cfg.coefFracBits (c i).toInt (cfg.qtAt i)
  | .coef => fun i => coefValue buf[i]

end Sys2Proof.Machine
end

