-- ==== Sys2Proof/Machine/Packer.lean ====
section
/-!
DEFINITION. The bit packer and byte stuffing (45_bitpacker.md). It alone pushes onto `outq` and
counts in `byte_count` (R246).
-/

namespace Sys2Proof.Machine

/-- The bytes one completed byte puts into `outq`: a 0xFF is followed at once by 0x00 (R244). -/
def stuffed (b : Byte) : List Byte := if b = 0xFF then [b, 0x00] else [b]

/-- `EmitByte(b)`: push the byte, and the stuffed 0x00 after a 0xFF; `byte_count` counts both,
modulo 2^32 (R244). -/
def emitByte (b : Byte) (s : State) : State :=
  { s with
    outq := s.outq ++ stuffed b
    byteCount := s.byteCount + BitVec.ofNat 32 (stuffed b).length }

/-- `2 * pk_bits + b`, transiently 8 bits wide (R242). -/
def shiftIn (bits : BitVec 7) (b : Bool) : Byte := bits ++ BitVec.ofBool b

/-- One bit of `PackWriteBits`: a byte is emitted as soon as 8 bits are pending, the earliest in bit 7
(R242, R243). -/
def packBit (s : State) (b : Bool) : State :=
  if s.pkN = 7 then emitByte (shiftIn s.pkBits b) { s with pkN := 0, pkBits := 0 }
  else { s with pkN := s.pkN + 1, pkBits := (shiftIn s.pkBits b).setWidth 7 }

/-- `PackWriteBits(s)`: append a bit string, first to last (R242). -/
def packBits (s : State) (bits : List Bool) : State := bits.foldl packBit s

/-- `PackWrite(c, L)`: append the low `L` bits of `c` (R242). -/
def packWrite (s : State) (c L : Nat) : State := packBits s (codeBits c L)

/-- The final byte of a flush: the pending bits padded with zero bits, `pk_bits * 2^(8 - pk_n)` (R245). -/
def paddedByte (s : State) : Byte := s.pkBits.setWidth 8 <<< (8 - s.pkN.val)

/-- `PackFlush()`: emit the padded byte if any bit is pending, by the same stuffing rule, and empty
the packer (R245). -/
def packFlush (s : State) : State :=
  let t := if s.pkN = 0 then s else emitByte (paddedByte s) s
  { t with pkN := 0, pkBits := 0 }

/-! The implementation's packer of R248: an accumulator register of `ACC_WIDTH` bits that takes a
whole code in one step and then gives up its completed bytes from the top. It is not architected; it
stands here so that R248's claim, that its width is not observable, can be stated. -/

/-- Give up the completed bytes of an accumulator that holds `n` pending bits, top byte first; `fuel`
bounds the number of bytes. -/
def accDrain : Nat → Nat → Nat → State → State
  | 0, _, _, s => s
  | fuel + 1, n, acc, s =>
    if 8 ≤ n then
      accDrain fuel (n - 8) (acc % 2 ^ (n - 8)) (emitByte (BitVec.ofNat 8 (acc / 2 ^ (n - 8))) s)
    else { s with pkN := Fin.ofNat 8 n, pkBits := BitVec.ofNat 7 acc }

/-- One write of `L` bits into an accumulator register of `width` bits: shift, add, and drain (R248). -/
def accWrite (width : Nat) (s : State) (c L : Nat) : State :=
  accDrain (L + 1) (s.pkN.val + L) ((s.pkBits.toNat * 2 ^ L + c % 2 ^ L) % 2 ^ width) s

end Sys2Proof.Machine
end

