-- ==== Sys2Proof/Machine/Zigzag.lean ====
section
/-!
DEFINITION. The zigzag stage (43_zigzag.md): the fixed 64-entry map, its inverse, and the two
reorderings. The map is no parameter (R9).
-/

namespace Sys2Proof.Machine

/-- The map `ZZ`, zigzag position to natural-order index, eight positions a line (R181). -/
def zzList : List (Fin 64) :=
  [0, 1, 8, 16, 9, 2, 3, 10] ++
  [17, 24, 32, 25, 18, 11, 4, 5] ++
  [12, 19, 26, 33, 40, 48, 41, 34] ++
  [27, 20, 13, 6, 7, 14, 21, 28] ++
  [35, 42, 49, 56, 57, 50, 43, 36] ++
  [29, 22, 15, 23, 30, 37, 44, 51] ++
  [58, 59, 52, 45, 38, 31, 39, 46] ++
  [53, 60, 61, 54, 47, 55, 62, 63]

/-- The inverse map `ZZinv`, natural-order index to zigzag position, one row of the block a line
(R183). -/
def zzInvList : List (Fin 64) :=
  [0, 1, 5, 6, 14, 15, 27, 28] ++
  [2, 4, 7, 13, 16, 26, 29, 42] ++
  [3, 8, 12, 17, 25, 30, 41, 43] ++
  [9, 11, 18, 24, 31, 40, 44, 53] ++
  [10, 19, 23, 32, 39, 45, 52, 54] ++
  [20, 22, 33, 38, 46, 51, 55, 60] ++
  [21, 34, 37, 47, 50, 56, 59, 61] ++
  [35, 36, 48, 49, 57, 58, 62, 63]

theorem zzList_length : zzList.length = 64 := rfl

theorem zzInvList_length : zzInvList.length = 64 := rfl

/-- `ZZ[k]`: the natural-order index of the coefficient at zigzag position k (R181). -/
def zz (k : Fin 64) : Fin 64 := zzList.get (k.cast zzList_length.symm)

/-- `ZZinv[n]`: the zigzag position of natural index n (R183). -/
def zzInv (n : Fin 64) : Fin 64 := zzInvList.get (n.cast zzInvList_length.symm)

/-- The stage: `z[k] = q[ZZ[k]]` (R180, R182). -/
def zigzag {α : Type} (q : Fin 64 → α) : Fin 64 → α := fun k => q (zz k)

/-- The inverse reordering: `a'[n] = b[ZZinv[n]]` (R183). -/
def unzigzag {α : Type} (b : Fin 64 → α) : Fin 64 → α := fun n => b (zzInv n)

/-- One anti-diagonal `s = row + col` of the scan that generates the map: on an odd `s` the row
ascends, on an even `s` it descends, over the cells with row and column in 0..7 (R181). -/
def zzDiagonal (s : Nat) : List Nat :=
  let up := (List.range 8).filterMap fun r =>
    if r ≤ s ∧ s - r < 8 then some (8 * r + (s - r)) else none
  if s % 2 = 1 then up else up.reverse

/-- The whole diagonal scan, s = 0 to 14 (R181). -/
def zzScan : List Nat := (List.range 15).flatMap zzDiagonal

end Sys2Proof.Machine
end

