-- ==== Sys2Proof/Machine/Ops.lean ====
section
/-!
DEFINITION. The operations the commands share: raising an error (the core's only exception,
60_exceptions.md R303) and leaving it by START or reset (R309, R313); the write of one element and the
encoding of a block (40_commands.md R113, R116); flush (R118); the delivery of a byte (20_memory.md
R64) and reset (70_reset_and_hazards.md R330). Each takes the configuration where it reads one.
-/

namespace Sys2Proof.Machine

/-- `raise Error(e)`: enter ERROR with the code and abandon the partial block; nothing else changes
(R303). There is no trap entry beside this: no vector, no saved counter, no mode (R312). -/
def raiseError (e : ErrorCode) (s : State) : State :=
  { s with st := .error, errcode := e, fill := 0 }

/-- The ERROR-state filter: in ERROR every word but START is accepted and has no effect (R110, R309). -/
def unlessError (s t : State) : State := if s.st = .error then s else t

/-- An illegal word: ILLEGAL, except in ERROR, where it is ignored (R110, R302). -/
def takeIllegal (s : State) : State := unlessError s (raiseError .illegal s)

/-- `DoStart()`: begin an image, in every state; the exit from ERROR. `buf` and `outq` stay (R112). -/
def doStart (s : State) : State :=
  { s with
    st := .active
    errcode := .noError
    fill := 0
    bmode := .sample
    anyblk := false
    prevDC := 0
    pkN := 0
    pkBits := 0
    byteCount := 0
    blockCount := 0 }

/-- The zigzag block of the buffer, `z[k] = q[ZZ[k]]` (R116, R182). -/
def zigzagBlock (cfg : Config) (s : State) : Fin 64 → Int :=
  zigzag (quantizedBlock cfg s.bmode s.buf)

/-- What a block leaves behind when it has been encoded: `prevDC <- z[0]` as int16, one more block,
`anyblk`, and an empty buffer (R116, R197). -/
def closeBlock (dc : Int) (s : State) : State :=
  { s with
    prevDC := BitVec.ofInt 16 dc
    blockCount := s.blockCount + 1
    anyblk := true
    fill := 0 }

/-- `EncodeBlock()` of a full buffer: all or nothing. The check comes before the first bit; a block that
fails it has no encoding, only the error to raise (R116, R117). -/
def encodeBlock (cfg : Config) (s : State) : Except ErrorCode State :=
  let z := zigzagBlock cfg s
  match entropyCheck z s.prevDC.toInt with
  | some e => .error e
  | none => .ok (closeBlock (z 0) (packBits s (blockBits cfg z s.prevDC.toInt)))

/-- The kind of the current block once this element is taken: its first element fixes it (R113, R305). -/
def kindAfter (kind : BlockKind) (s : State) : BlockKind := if s.fill = 0 then kind else s.bmode

/-- `buf[fill] <- d`, with the block's kind set by its first element (R113). -/
def storeElement (kind : BlockKind) (d : Data) (s : State) : State :=
  { s with buf := s.buf.set s.fill.val d s.fill.isLt, bmode := kindAfter kind s }

/-- `DoWrite(mode, d)` in a state that is not ERROR: SEQ, then MIX, then the element is stored, and
the 64th one encodes the block (R113). A 64th element whose block is refused is not stored: the error is
raised in the state before the command, which keeps `buf` (60_exceptions.md R303, R312; log 10). -/
def doWrite (cfg : Config) (kind : BlockKind) (d : Data) (s : State) : State :=
  if s.st ≠ .active then raiseError .seq s
  else if s.fill ≠ 0 ∧ kind ≠ s.bmode then raiseError .mix s
  else if s.fill = 63 then
    match encodeBlock cfg (storeElement kind d s) with
    | .error e => raiseError e s
    | .ok t => t
  else { storeElement kind d s with fill := s.fill + 1 }

/-- `DoFlush()` in a state that is not ERROR: SEQ, then PARTIAL, then EMPTY, else flush the packer and
end the image (R118). -/
def doFlush (s : State) : State :=
  if s.st ≠ .active then raiseError .seq s
  else if s.fill ≠ 0 then raiseError .partialBlock s
  else if s.anyblk = false then raiseError .empty s
  else { packFlush s with st := .done }

/-- One transfer on the output channel: the head of `outq` goes to the host, and no other state of the
core changes; nothing when no byte is presented (R64). -/
def deliverByte (s : State) : State :=
  match s.outq with
  | [] => s
  | b :: rest => { s with outq := rest, rxBytes := s.rxBytes ++ [b] }

/-- One clock edge with `rst` = 1: the reset column of R32; undelivered bytes are discarded; no
internal work is left, since STATUS reads 0 (R330). `buf` is unspecified afterwards and left alone
here (log 1). What the host offers and has received is the host's and stays. -/
def resetCore (s : State) : State :=
  { s with
    st := .idle
    errcode := .noError
    fill := 0
    bmode := .sample
    anyblk := false
    prevDC := 0
    pkN := 0
    pkBits := 0
    byteCount := 0
    blockCount := 0
    outq := []
    work := 0 }

end Sys2Proof.Machine
end

