-- ==== Sys2Proof/Machine/BlockWrite.lean ====
section
/-!
DEFINITION. The commands that write one element of the current block: SAMPLE and COEF (40_commands.md
R113 to R115). They share `doWrite` and differ in the block's kind.
-/

namespace Sys2Proof.Machine

/-- SAMPLE: writes one luminance sample; ignored in ERROR (R110, R114). -/
def execSample (d : Data) (s : State) : Host.Outcome State Fault Refusal :=
  .next (unlessError s (doWrite Config.core .sample d s))

/-- COEF: writes one quantized coefficient; ignored in ERROR (R110, R115). -/
def execCoef (d : Data) (s : State) : Host.Outcome State Fault Refusal :=
  .next (unlessError s (doWrite Config.core .coef d s))

end Sys2Proof.Machine
end

