-- ==== Sys2Proof/Machine/Lifecycle.lean ====
section
/-!
DEFINITION. The commands that move an image along: NOP, START and FLUSH (40_commands.md R111, R112,
R118). Each accepted command's whole effect is one next state (R62); an error is a next state too
(R303).
-/

namespace Sys2Proof.Machine

/-- NOP: no effect in any state (R111). -/
def execNop (s : State) : Host.Outcome State Fault Refusal := .next s

/-- START: begins an image in every state, ERROR among them (R110, R112). -/
def execStart (s : State) : Host.Outcome State Fault Refusal := .next (doStart s)

/-- FLUSH: ends the image; ignored in ERROR (R110, R118). -/
def execFlush (s : State) : Host.Outcome State Fault Refusal := .next (unlessError s (doFlush s))

end Sys2Proof.Machine
end

