-- ==== Sys2Proof/Machine/Dispatch.lean ====
section
/-!
DEFINITION. The dispatch of 40_commands.md R110 over the legal commands, one arm each. The ERROR-state
filter stands in each meaning, since START passes it.
-/

namespace Sys2Proof.Machine

def exec (i : Instr) (s : State) : Host.Outcome State Fault Refusal :=
  match i with
  | .nop => Sys2Proof.Machine.execNop s
  | .start => Sys2Proof.Machine.execStart s
  | .sample d => Sys2Proof.Machine.execSample d s
  | .coef d => Sys2Proof.Machine.execCoef d s
  | .flush => Sys2Proof.Machine.execFlush s

end Sys2Proof.Machine
end

