-- ==== Sys2Proof/Machine/Flags.lean ====
section
/-!
DEFINITION. What the host sees of the core: the read-only registers (10_state.md R43 to R51), BUSY and
the draws of a read that is not quiescent (R51, R67), the levels `done_o` and `err_o` (60_exceptions.md
R310), and the ready and valid levels of the two channels (20_memory.md R63, R64). The core has no flag
that a command reads (R42). None of these changes any state.
-/

namespace Sys2Proof.Machine

/-- STATUS.STATE: IDLE=0, ACTIVE=1, DONE=2, ERROR=3 (R44). -/
def ImageState.code : ImageState → BitVec 2
  | .idle => 0
  | .active => 1
  | .done => 2
  | .error => 3

/-- STATUS.ERRCODE (R301). -/
def ErrorCode.code : ErrorCode → BitVec 4
  | .noError => 0
  | .illegal => 1
  | .seq => 2
  | .mix => 3
  | .dcCat => 4
  | .acCat => 5
  | .empty => 6
  | .partialBlock => 7

/-- STATUS.BMODE: SAMPLE=0, COEF=1 (R44). -/
def BlockKind.code : BlockKind → BitVec 1
  | .sample => 0
  | .coef => 1

/-- STATUS: STATE [1:0], BUSY [2], 0 [3], ERRCODE [7:4], FILL [13:8], BMODE [14], ANYBLK [15],
0 [31:16] (R44). -/
def statusWord (busy : Bool) (s : State) : Word :=
  (0 : BitVec 16) ++ BitVec.ofBool s.anyblk ++ s.bmode.code ++ BitVec.ofNat 6 s.fill.val ++
    s.errcode.code ++ (0 : BitVec 1) ++ BitVec.ofBool busy ++ s.st.code

/-- PACKER: `pk_n` in [2:0], `pk_bits` in [14:8], the rest 0 (R49). -/
def packerWord (s : State) : Word :=
  (0 : BitVec 17) ++ s.pkBits ++ (0 : BitVec 5) ++ BitVec.ofNat 3 s.pkN.val

/-- The architected value of the register at an address, with BUSY = 0; addresses 6 and 7 read 0
(R43 to R50). -/
def exactReg (cfg : Config) (s : State) (addr : BitVec 3) : Word :=
  if addr = 0 then statusWord false s
  else if addr = 1 then s.byteCount
  else if addr = 2 then s.blockCount
  else if addr = 3 then s.prevDC.signExtend 32
  else if addr = 4 then packerWord s
  else if addr = 5 then cfg.idValue
  else 0

/-- BUSY: 1 whenever `outq` is not empty, and for the drawn, finite time after that in which internal
work is left (R51). The core is quiescent when it is 0 (R67). -/
def busy (s : State) : Bool := !s.outq.isEmpty || decide (s.work ≠ 0)

/-- `rd_data` for `rd_addr` in this step: exact when the core is quiescent; otherwise STATUS shows
BUSY = 1 and any other bits, and any other register any value (R65, R67). -/
def readPort (cfg : Config) (s : State) (addr : BitVec 3) : Word :=
  if busy s then
    if addr = 0 then Config.readDraw s.tick addr ||| 0x00000004#32 else Config.readDraw s.tick addr
  else exactReg cfg s addr

/-- `done_o` (R310). -/
def doneOut (s : State) : Bool := decide (s.st = .done)

/-- `err_o` (R310). -/
def errOut (s : State) : Bool := decide (s.st = .error)

/-- `cmd_ready` in a step with the given level of `rst`: 0 during reset (R330); otherwise the core
accepts when `outq` is empty, and by the draw `ready` when it is not, whatever the command (R63). -/
def cmdReadyOut (rst : Bool) (s : State) : Bool := !rst && (s.outq.isEmpty || s.ready)

/-- `out_valid` in a step with the given level of `rst`: 0 during reset (R330); otherwise 1 whenever
`outq` is not empty (R64). -/
def outValidOut (rst : Bool) (s : State) : Bool := !rst && !s.outq.isEmpty

/-- `out_data`: the head of `outq`, when `out_valid` is 1 (R64). -/
def outDataOut (s : State) : Option Byte := s.outq.head?

end Sys2Proof.Machine
end

