-- ==== Sys2Proof/Machine/Channels.lean ====
section
/-!
DEFINITION. One step at the core's ports (20_memory.md R61 to R67): a turn of the command channel, an
output transfer, a register read, or a clock edge with `rst` = 1. The model is transaction-level: a
step is one transfer or none, and there is no clock (92_eei_decisions.md D1, R345). Transfers on
different ports in one cycle are separate steps here, which any order allows.
-/

namespace Sys2Proof.Machine

/-- The end of a step that accepted no command: the step is counted, the next step's acceptance is
drawn, and internal work goes on (R51, R63). -/
def passTime (s : State) : State :=
  { s with tick := s.tick + 1, ready := Config.readyDraw s.tick, work := s.work - 1 }

/-- The end of a step that accepted a command: as `passTime`, and the internal work the command leaves
is drawn (R51, R53). -/
def afterCommand (s : State) : State :=
  { s with tick := s.tick + 1, ready := Config.readyDraw s.tick, work := Config.workDraw s.tick }

/-- A command word is accepted: its whole effect takes place at once (R62). An illegal word raises
ILLEGAL (R110). -/
def acceptWord (w : Word) (s : State) : Host.Outcome State Fault Refusal :=
  match decode w with
  | .ok i =>
    match exec i s with
    | .next t => .next (afterCommand t)
    | .fault r => .fault r
    | .refused r => .refused r
  | .error _ => .next (afterCommand (takeIllegal s))

/-- A turn of the command channel: the next offered word is taken if the core accepts, and stays
offered if it does not; acceptance does not look at the word (R62, R63). -/
def commandTurn (s : State) : Host.Outcome State Fault Refusal :=
  match s.cmdq with
  | [] => .next (passTime s)
  | w :: rest => if cmdReadyOut false s then acceptWord w { s with cmdq := rest } else .next (passTime s)

/-- The host reads a register: no state of the core changes (R65). -/
def readTurn (addr : BitVec 3) (s : State) : State :=
  passTime { s with rdData := readPort Config.core s addr }

/-- The host keeps at an act that is not complete yet. -/
def keepAct (a : HostAct) (s : State) : State := { s with acts := a :: s.acts }

/-- What the host does in this step, its act already taken from the list. -/
def hostTurn (a : HostAct) (s : State) : Host.Outcome State Fault Refusal :=
  match a with
  | .tryCommand => commandTurn s
  | .sendCommand =>
    if outValidOut false s then .next (passTime (keepAct .sendCommand (deliverByte s)))
    else commandTurn s
  | .takeByte => .next (passTime (deliverByte s))
  | .readReg addr => .next (readTurn addr s)
  | .drain =>
    if outValidOut false s then .next (passTime (keepAct .drain (deliverByte s)))
    else .next (passTime s)
  | .waitIdle =>
    let t := readTurn 0 s
    if t.rdData.getLsbD 2 then .next (keepAct .waitIdle t) else .next t
  | .reset => .next (passTime (resetCore s))

/-- One step's work: the host's next act, or a turn of the command channel when it has none. -/
def portTurn (s : State) : Host.Outcome State Fault Refusal :=
  match s.acts with
  | [] => commandTurn s
  | a :: rest => hostTurn a { s with acts := rest }

/-- The word of an instruction given as the opcode table numbers its bits; bits above `nbits` are 0. -/
def tableWord (nbits w : Nat) : Word := BitVec.ofNat 32 (w % 2 ^ nbits)

/-- The host offers a word as the next command, gives the next step to the command channel, and the
core will accept in it (log 8). -/
def offerNext (w : Word) (s : State) : State :=
  { s with cmdq := w :: s.cmdq, acts := .tryCommand :: s.acts, ready := true }

end Sys2Proof.Machine
end

