-- ==== Sys2Proof/Machine/Step.lean ====
section
/-!
DEFINITION. The machine's step. The core fetches nothing (20_memory.md R72): a step is a turn of the
host's next act or of the command channel (Channels.lean).
-/

namespace Sys2Proof.Machine

/-- One step. -/
def step (s : State) : Host.Outcome State Fault Refusal := portTurn s

/-- `s` with an instruction, its bits numbered as spec/opcode_table.json numbers them, offered as the
next command on the command channel, so that the next step accepts and runs it (R62, log 8). -/
def State.withFetchWord (s : State) (nbits w : Nat) : State := offerNext (tableWord nbits w) s

end Sys2Proof.Machine
end

