-- ==== Sys2Proof/Machine/HostSide.lean ====
section
/-!
DEFINITION. The host's duties as reference functions (48_host_side.md): segmentation with edge clamp,
sample delivery, the command sequence of one image and what its bytes mean. They bind the host, not
the core (R260): the machine calls none of them; they say what a claim about a whole image may assume
the host did, and how its output is read.
-/

namespace Sys2Proof.Machine

/-- The input plane: sample `P(X, Y)` at column X and row Y, centred around zero (R261). The samples are
of any ordered field: R261's are `Plane ℝ`, and a `Plane ℚ` can be evaluated (log 9). -/
structure Plane (K : Type) where
  width : Nat
  height : Nat
  sample : Nat → Nat → K

/-- `ceil(n/8)`: the blocks along a dimension (R262). -/
def blocksAlong (n : Nat) : Nat := (n + 7) / 8

/-- Block (bx, by): element `8*y + x` is the sample at `(bx*8 + x, by*8 + y)`, each coordinate clamped
to the last valid one (R263). -/
def Plane.block {K : Type} (p : Plane K) (bx bY : Nat) : Fin 64 → K := fun i =>
  p.sample (min (bx * 8 + (colOf i).val) (p.width - 1)) (min (bY * 8 + (rowOf i).val) (p.height - 1))

/-- Segmentation: the blocks in raster order (R262). -/
def Plane.segment {K : Type} (p : Plane K) : List (Fin 64 → K) :=
  (List.range (blocksAlong p.height)).flatMap fun bY =>
    (List.range (blocksAlong p.width)).map fun bx => p.block bx bY

/-- A sample is within the range of the SAMPLE operand (R93, R265). -/
def sampleInRange {K : Type} [Field K] [LinearOrder K] (fracBits : Nat) (s : K) : Bool :=
  decide (-(2 : K) ^ 15 ≤ s * 2 ^ fracBits ∧ s * 2 ^ fracBits ≤ 2 ^ 15 - 1)

/-- A quantized coefficient is within int16, the range of the COEF operand (R94). -/
def coefInRange (c : Int) : Bool := decide (-32768 ≤ c ∧ c ≤ 32767)

/-- The conversion of a sample to the SAMPLE operand: to the nearest integer, ties away from zero
(R265). -/
def sampleOperand {K : Type} [Field K] [LinearOrder K] [FloorRing K] (fracBits : Nat) (s : K) : Data :=
  BitVec.ofInt 16 (roundHalfAway (s * 2 ^ fracBits))

/-- A block as the host supplies it: its samples, or its coefficients already quantized (R267). -/
inductive HostBlock (K : Type) where
  | samples (f : Fin 64 → K)
  | coefs (q : Fin 64 → Int)

/-- The 64 commands of a block in natural order: SAMPLE for samples (R265, `BLOCK.S`), COEF for
coefficients (R267, `BLOCK.C`). None when an element is outside its operand's range. -/
def blockWords {K : Type} [Field K] [LinearOrder K] [FloorRing K] (cfg : Config) :
    HostBlock K → Option (List Word)
  | .samples f =>
    if (List.finRange 64).all fun i => sampleInRange cfg.sampleFracBits (f i) then
      some ((List.finRange 64).map fun i => encode (.sample (sampleOperand cfg.sampleFracBits (f i))))
    else none
  | .coefs q =>
    if (List.finRange 64).all fun i => coefInRange (q i) then
      some ((List.finRange 64).map fun i => encode (.coef (BitVec.ofInt 16 (q i))))
    else none

/-- The commands of one image: START, its blocks in raster order, each of either kind, FLUSH (R267).
None for zero width or height, which the host must not start (R266), for another number of blocks than
the dimensions have (R262), and when a block is refused. -/
def imageCommands {K : Type} [Field K] [LinearOrder K] [FloorRing K] (cfg : Config)
    (width height : Nat) (blocks : List (HostBlock K)) : Option (List Word) :=
  if width = 0 ∨ height = 0 ∨ blocks.length ≠ blocksAlong width * blocksAlong height then none
  else (blocks.mapM (blockWords cfg)).map fun ws => encode .start :: ws.flatten ++ [encode .flush]

/-- The commands of a plane: its segmented blocks, all as samples (R262, R267). -/
def imageWords {K : Type} [Field K] [LinearOrder K] [FloorRing K] (cfg : Config) (p : Plane K) :
    Option (List Word) :=
  imageCommands cfg p.width p.height (p.segment.map .samples)

/-- What the host offers and does, to be placed in a state. -/
structure HostScript where
  words : List Word
  acts : List HostAct
  deriving DecidableEq, Repr

/-- Sending commands in order, one act for each (R343). -/
def sendScript (words : List Word) : HostScript := ⟨words, words.map fun _ => .sendCommand⟩

/-- One script after another. -/
def HostScript.append (a b : HostScript) : HostScript := ⟨a.words ++ b.words, a.acts ++ b.acts⟩

/-- Driving one image: its commands, then `DRAIN` and `WAITIDLE` (R267). -/
def imageScript (words : List Word) : HostScript :=
  (sendScript words).append ⟨[], [.drain, .waitIdle]⟩

/-- The host starts on a script after what it already has to do. -/
def State.load (s : State) (h : HostScript) : State :=
  { s with cmdq := s.cmdq ++ h.words, acts := s.acts ++ h.acts }

/-- The bytes the output channel delivered between two states of a run (R268). -/
def deliveredBytes (atStart atEnd : State) : List Byte := atEnd.rxBytes.drop atStart.rxBytes.length

/-- What the host reports of an image (R267). -/
inductive ImageReport where
  /-- STATE = DONE: the image succeeded, and these delivered bytes are its scan data (R268). -/
  | succeeded (scan : List Byte)
  /-- STATE = ERROR: the image failed with this code; its bytes are discarded (R267, R308). -/
  | failed (errcode : BitVec 4)
  /-- STATE = IDLE or ACTIVE: no image has ended. -/
  | notEnded
  deriving DecidableEq, Repr

/-- The report from a STATUS word with BUSY = 0 and the bytes delivered since the image's START (R44,
R267). -/
def imageReport (status : Word) (delivered : List Byte) : ImageReport :=
  let state := status.extractLsb' 0 2
  if state = 2 then .succeeded delivered
  else if state = 3 then .failed (status.extractLsb' 4 4)
  else .notEnded

/-- The scan data the host keeps: none of a failed image (R267, R308). -/
def ImageReport.scan : ImageReport → Option (List Byte)
  | .succeeded scan => some scan
  | .failed _ => none
  | .notEnded => none

/-- The scan with every stuffed 0x00 after a 0xFF removed: the emitted data bytes (R250). -/
def unstuff : List Byte → List Byte
  | [] => []
  | [b] => [b]
  | b :: c :: rest => if b = 0xFF ∧ c = 0x00 then b :: unstuff rest else b :: unstuff (c :: rest)

/-- The bits of a byte sequence, earliest bit in bit 7 of each byte (R66, R243). -/
def bytesBits (bs : List Byte) : List Bool := bs.flatMap fun b => codeBits b.toNat 8

/-- The pending bits of the packer as a bit string (R241). -/
def pendingBits (s : State) : List Bool := codeBits s.pkBits.toNat s.pkN.val

/-- An upper bound on the bytes of an image whose blocks produce `bits` bits (R250). -/
def scanBound (bits : Nat) : Nat := 2 * (bits / 8) + 1

/-- The longest code of a symbol list in a table. -/
def longestCode (table : Nat → HuffCode) (symbols : List Nat) : Nat :=
  symbols.foldl (fun m s => max m (table s).len) 0

/-- The bound on the bits of one block: (longest DC code + 11) + 63·(longest AC code + 10) (R202). -/
def blockBitsBound (cfg : Config) : Nat :=
  (longestCode cfg.dchuf dcSymbols + 11) + 63 * (longestCode cfg.achuf acSymbols + 10)

/-- The command transfers of a block: one for each of its 64 elements (R113, R346). -/
def blockTransfers : Nat := 64

/-- The most bytes one block can complete: up to 7 bits pending before it, and its own (R346). -/
def blockByteBound (cfg : Config) : Nat := (7 + blockBitsBound cfg) / 8

/-- The most bytes one block can push, every one of them stuffed (R346). -/
def blockOutputBound (cfg : Config) : Nat := 2 * blockByteBound cfg

end Sys2Proof.Machine
end

