-- ==== Sys2Proof/Machine/Assembler.lean ====
section
/-!
DEFINITION. The command assembly language (30_encoding.md R99 to R101): its lines as terms, what each
encodes as, and the host's script of a program. A line that is not representable is refused (M22).
AsmText.lean reads the lines from text.
-/

namespace Sys2Proof.Machine

/-- One line of a program: a command (R99), a pseudo-command (R100) or a host action (R101). -/
inductive AsmLine where
  | nop
  | start
  /-- `SAMPLE <s>`. -/
  | sample (s : ℚ)
  /-- `SAMPLE.raw <h>`. -/
  | sampleRaw (h : Data)
  /-- `COEF <c>`. -/
  | coef (c : Int)
  | flush
  /-- `.word 0x<8 hex digits>`. -/
  | word (w : Word)
  /-- `BLOCK.S s0, …, s63`. -/
  | blockS (samples : List ℚ)
  /-- `BLOCK.S.FILL s`. -/
  | blockSFill (s : ℚ)
  /-- `BLOCK.C c0, …, c63`. -/
  | blockC (coefs : List Int)
  /-- `BLOCK.C.SPARSE i1:c1, …`. -/
  | blockCSparse (entries : List (Nat × Int))
  /-- `DRAIN`. -/
  | drain
  /-- `WAITIDLE`. -/
  | waitIdle
  /-- `READ <reg>`. -/
  | read (addr : BitVec 3)
  deriving DecidableEq, Repr

/-- `SAMPLE <s>`: `s * 2^SAMPLE_FRAC_BITS` must be an integer in the operand's range (R99). -/
def asmSample (fracBits : Nat) (s : ℚ) : Option Word :=
  let v := s * 2 ^ fracBits
  if v.den = 1 ∧ -32768 ≤ v.num ∧ v.num ≤ 32767 then some (encode (.sample (BitVec.ofInt 16 v.num)))
  else none

/-- `COEF <c>`: `c` must be in int16 (R99). -/
def asmCoef (c : Int) : Option Word :=
  if -32768 ≤ c ∧ c ≤ 32767 then some (encode (.coef (BitVec.ofInt 16 c))) else none

/-- The entries of `BLOCK.C.SPARSE` are natural-order indices 0..63, each at most once (R100). -/
def sparseOk (entries : List (Nat × Int)) : Bool :=
  (entries.all fun e => decide (e.1 < 64)) && decide (entries.map Prod.fst).Nodup

/-- The 64 coefficients of `BLOCK.C.SPARSE` (R100). -/
def sparseCoefs (entries : List (Nat × Int)) : List Int :=
  (List.range 64).map fun i => (entries.lookup i).getD 0

/-- The command words a line encodes as; a host action encodes to nothing (R99 to R101). `none` is a
refused line. -/
def asmWords (cfg : Config) : AsmLine → Option (List Word)
  | .nop => some [encode .nop]
  | .start => some [encode .start]
  | .sample s => (asmSample cfg.sampleFracBits s).map fun w => [w]
  | .sampleRaw h => some [encode (.sample h)]
  | .coef c => (asmCoef c).map fun w => [w]
  | .flush => some [encode .flush]
  | .word w => some [w]
  | .blockS samples =>
    if samples.length = 64 then samples.mapM (asmSample cfg.sampleFracBits) else none
  | .blockSFill s => (asmSample cfg.sampleFracBits s).map fun w => List.replicate 64 w
  | .blockC coefs => if coefs.length = 64 then coefs.mapM asmCoef else none
  | .blockCSparse entries => if sparseOk entries then (sparseCoefs entries).mapM asmCoef else none
  | .drain => some []
  | .waitIdle => some []
  | .read _ => some []

/-- The host acts of a host action (R101). `READ` waits for BUSY = 0 first. -/
def asmActs : AsmLine → List HostAct
  | .drain => [.drain]
  | .waitIdle => [.waitIdle]
  | .read addr => [.waitIdle, .readReg addr]
  | .nop | .start | .sample _ | .sampleRaw _ | .coef _ | .flush | .word _ => []
  | .blockS _ | .blockSFill _ | .blockC _ | .blockCSparse _ => []

/-- The script of one line. -/
def asmScript (cfg : Config) (line : AsmLine) : Option HostScript :=
  (asmWords cfg line).map fun ws => (sendScript ws).append ⟨[], asmActs line⟩

/-- The script of a program, its lines in order; refused when one of its lines is. -/
def asmProgram (cfg : Config) (lines : List AsmLine) : Option HostScript :=
  (lines.mapM (asmScript cfg)).map fun scripts =>
    scripts.foldl HostScript.append ⟨[], []⟩

end Sys2Proof.Machine
end

