-- ==== Sys2Proof/Machine/AsmText.lean ====
section
/-!
DEFINITION. The written form of the assembly language: one command a line, mnemonic first,
case-insensitive, comments from `;` on (30_encoding.md R99 to R101). The text is a list of characters.
-/

namespace Sys2Proof.Machine

/-- A character that separates operands. -/
def isSeparator (c : Char) : Bool := c == ' ' || c == '\t' || c == ','

/-- The line without its comment (R99). -/
def dropComment (line : List Char) : List Char := line.takeWhile (· != ';')

/-- The tokens of a line, `cur` the token being read, in reverse. -/
def tokensFrom (cur : List Char) : List Char → List (List Char)
  | [] => if cur.isEmpty then [] else [cur.reverse]
  | c :: rest =>
    if isSeparator c then
      if cur.isEmpty then tokensFrom [] rest else cur.reverse :: tokensFrom [] rest
    else tokensFrom (c.toUpper :: cur) rest

/-- The tokens of a line in upper case, comment dropped. -/
def lineTokens (line : List Char) : List (List Char) := tokensFrom [] (dropComment line)

/-- A decimal digit's value. -/
def decDigit (c : Char) : Option Nat := if c.isDigit then some (c.toNat - '0'.toNat) else none

/-- A hexadecimal digit's value, upper case. -/
def hexDigit (c : Char) : Option Nat :=
  if c.isDigit then some (c.toNat - '0'.toNat)
  else if 'A'.toNat ≤ c.toNat ∧ c.toNat ≤ 'F'.toNat then some (c.toNat - 'A'.toNat + 10)
  else none

/-- A nonempty digit string's value in a base. -/
def readDigits (base : Nat) (digit : Char → Option Nat) (cs : List Char) : Option Nat :=
  if cs.isEmpty then none
  else (cs.mapM digit).map fun ds => ds.foldl (fun acc d => acc * base + d) 0

/-- A decimal natural number. -/
def readNat (cs : List Char) : Option Nat := readDigits 10 decDigit cs

/-- A decimal integer with an optional minus sign. -/
def readInt : List Char → Option Int
  | '-' :: cs => (readNat cs).map fun n => -(n : Int)
  | cs => (readNat cs).map fun n => (n : Int)

/-- An unsigned decimal number with an optional fraction. -/
def readUnsignedDecimal (cs : List Char) : Option ℚ :=
  let whole := cs.takeWhile (· != '.')
  match cs.dropWhile (· != '.') with
  | [] => (readNat whole).map fun n => (n : ℚ)
  | _ :: frac => do
    let w ← readNat whole
    let f ← readNat frac
    some ((w : ℚ) + (f : ℚ) / 10 ^ frac.length)

/-- A decimal number with an optional minus sign (R99). -/
def readDecimal : List Char → Option ℚ
  | '-' :: cs => (readUnsignedDecimal cs).map fun q => -q
  | cs => readUnsignedDecimal cs

/-- A hexadecimal number of 1 to `digits` digits, with or without `0x`. -/
def readHex (digits : Nat) (cs : List Char) : Option Nat :=
  let ds := match cs with
    | '0' :: 'X' :: rest => rest
    | _ => cs
  if ds.length ≤ digits then readDigits 16 hexDigit ds else none

/-- `0x` and exactly eight hexadecimal digits (R99). -/
def readWord : List Char → Option Word
  | '0' :: 'X' :: rest =>
    if rest.length = 8 then (readDigits 16 hexDigit rest).map (BitVec.ofNat 32) else none
  | _ => none

/-- An entry `i:c` of `BLOCK.C.SPARSE` (R100). -/
def readEntry (cs : List Char) : Option (Nat × Int) :=
  match cs.dropWhile (· != ':') with
  | _ :: value => do
    let i ← readNat (cs.takeWhile (· != ':'))
    let c ← readInt value
    some (i, c)
  | [] => none

/-- A register's name (R43). -/
def readRegName (cs : List Char) : Option (BitVec 3) :=
  if cs = "STATUS".toList then some 0
  else if cs = "BYTE_COUNT".toList then some 1
  else if cs = "BLOCK_COUNT".toList then some 2
  else if cs = "PREV_DC".toList then some 3
  else if cs = "PACKER".toList then some 4
  else if cs = "ID".toList then some 5
  else none

/-- One operand, read by `read`, and no more. -/
def oneOperand {α : Type} (read : List Char → Option α) : List (List Char) → Option α
  | [cs] => read cs
  | _ => none

/-- A line without an operand. -/
def noOperand (line : AsmLine) : List (List Char) → Option AsmLine
  | [] => some line
  | _ => none

/-- A line from its mnemonic and operands (R99 to R101). -/
def readLine (mnemonic : List Char) (ops : List (List Char)) : Option AsmLine :=
  if mnemonic = "NOP".toList then noOperand .nop ops
  else if mnemonic = "START".toList then noOperand .start ops
  else if mnemonic = "SAMPLE".toList then (oneOperand readDecimal ops).map .sample
  else if mnemonic = "SAMPLE.RAW".toList then
    (oneOperand (readHex 4) ops).map fun h => .sampleRaw (BitVec.ofNat 16 h)
  else if mnemonic = "COEF".toList then (oneOperand readInt ops).map .coef
  else if mnemonic = "FLUSH".toList then noOperand .flush ops
  else if mnemonic = ".WORD".toList then (oneOperand readWord ops).map .word
  else if mnemonic = "BLOCK.S".toList then (ops.mapM readDecimal).map .blockS
  else if mnemonic = "BLOCK.S.FILL".toList then (oneOperand readDecimal ops).map .blockSFill
  else if mnemonic = "BLOCK.C".toList then (ops.mapM readInt).map .blockC
  else if mnemonic = "BLOCK.C.SPARSE".toList then (ops.mapM readEntry).map .blockCSparse
  else if mnemonic = "DRAIN".toList then noOperand .drain ops
  else if mnemonic = "WAITIDLE".toList then noOperand .waitIdle ops
  else if mnemonic = "READ".toList then (oneOperand readRegName ops).map .read
  else none

/-- One line of text: no line for an empty one, one for a line that is well written, `none` for a
refused one. -/
def parseLine (line : List Char) : Option (List AsmLine) :=
  match lineTokens line with
  | [] => some []
  | mnemonic :: ops => (readLine mnemonic ops).map fun l => [l]

/-- A program text, one line after another. -/
def parseProgram (text : List (List Char)) : Option (List AsmLine) := (text.mapM parseLine).map List.flatten

/-- A program text as the host's script. -/
def assembleText (cfg : Config) (text : List (List Char)) : Option HostScript :=
  (parseProgram text).bind (asmProgram cfg)

end Sys2Proof.Machine
end

