-- ==== Sys2Proof/Machine/Container.lean ====
section
/-!
DEFINITION. The host's container writer (48_host_side.md R269 to R285): the bytes of the file around
the scan data. It carries the configuration's own tables, the ones the core uses (R275).
-/

namespace Sys2Proof.Machine

/-- A 16-bit field, most significant byte first (R270). -/
def bigEndian16 (n : Nat) : List Byte := [BitVec.ofNat 8 (n / 256), BitVec.ofNat 8 n]

/-- A 16-bit parameter as two bytes, most significant first (R270). -/
def wordBytes16 (w : BitVec 16) : List Byte := [w.extractLsb' 8 8, w.extractLsb' 0 8]

/-- A table entry as one byte. DESIGN CHOICE (log 26): a histogram count of 256, which R208 allows an AC
table and which is no byte, is written as 00; R280 does not say what it is. -/
def tableByte (n : Nat) : Byte := BitVec.ofNat 8 n

/-- A segment: its marker, the length that counts the length field and the payload, the payload
(R270). -/
def markerSegment (marker : Byte) (payload : List Byte) : List Byte :=
  [0xFF, marker] ++ bigEndian16 (payload.length + 2) ++ payload

/-- SOI (R272). -/
def soiBytes : List Byte := [0xFF, 0xD8]

/-- EOI (R283). -/
def eoiBytes : List Byte := [0xFF, 0xD9]

/-- APP0: identifier "JFIF\0", version, density units, X and Y density, thumbnail sizes 0 (R273, R274). -/
def app0Bytes (cfg : Config) : List Byte :=
  markerSegment 0xE0 ([0x4A, 0x46, 0x49, 0x46, 0x00] ++ wordBytes16 cfg.jfifVersion ++
    [cfg.jfifUnits] ++ wordBytes16 cfg.jfifXDensity ++ wordBytes16 cfg.jfifYDensity ++ [0x00, 0x00])

/-- DQT: precision/id byte 0, then the zigzag-permuted copy `QT[ZZ[k]]` (R277). -/
def dqtBytes (cfg : Config) : List Byte :=
  markerSegment 0xDB (0x00 :: (List.finRange 64).map fun k => tableByte (cfg.qtAt (zz k)))

/-- SOF0: precision 8, height, width, one component with id 1, sampling 1×1, quantization table 0
(R276, R278). -/
def sof0Bytes (width height : Nat) : List Byte :=
  markerSegment 0xC0 ([0x08] ++ bigEndian16 height ++ bigEndian16 width ++ [0x01, 0x01, 0x11, 0x00])

/-- A DHT segment: class/id byte, the histogram, the symbol list (R279, R280). -/
def dhtBytes (classId : Byte) (bits vals : List Nat) : List Byte :=
  markerSegment 0xC4 (classId :: (bits.map tableByte ++ vals.map tableByte))

/-- SOS: one component with id 1, table selectors 0, spectral selection 00 3F 00 (R281). -/
def sosBytes : List Byte := markerSegment 0xDA [0x01, 0x01, 0x00, 0x00, 0x3F, 0x00]

/-- Everything before the scan data, in the order of R269. -/
def containerHead (cfg : Config) (width height : Nat) : List Byte :=
  soiBytes ++ app0Bytes cfg ++ dqtBytes cfg ++ sof0Bytes width height ++
    dhtBytes 0x00 cfg.bitsDC cfg.huffvalDC ++ dhtBytes 0x10 cfg.bitsAC cfg.huffvalAC ++ sosBytes

/-- The file: head, the scan data verbatim (R282), EOI. None when a dimension is not in 1..65535
(R278) or the configuration is ill formed. -/
def containerFile (cfg : Config) (width height : Nat) (scan : List Byte) : Option (List Byte) :=
  if 1 ≤ width ∧ width ≤ 65535 ∧ 1 ≤ height ∧ height ≤ 65535 ∧ cfg.WellFormed = true then
    some (containerHead cfg width height ++ scan ++ eoiBytes)
  else none

/-- The file the host writes of an image, from its report: a file of a successful one, none of a failed
one, whose bytes it has discarded (R267). -/
def imageFile (cfg : Config) (width height : Nat) (report : ImageReport) : Option (List Byte) :=
  report.scan.bind (containerFile cfg width height)

end Sys2Proof.Machine
end

