-- ==== Sys2Proof/Safety.lean ====
section
/-!
DEFINITION. What a sound state of the machine is: the relations between its fields that the spec
states and that every step keeps (10_state.md R34 to R41; 45_bitpacker.md R250).
-/

namespace Sys2Proof.Machine

/-- No 0xFF of a byte sequence stands without a 0x00 immediately after it (R250). -/
def stuffedBytes : List Byte → Bool
  | [] => true
  | [b] => decide (b ≠ 0xFF)
  | b :: c :: rest => (decide (b ≠ 0xFF) || decide (c = 0x00)) && stuffedBytes (c :: rest)

/-- `pk_bits` has no more bits than `pk_n` says: its value is below `2^pk_n` (R32, R39). -/
def packerOk (s : State) : Bool := decide (s.pkBits.toNat < 2 ^ s.pkN.val)

/-- `errcode` is 0 exactly when `st` is not ERROR (R34, R303). -/
def errorOk (s : State) : Bool := decide (s.errcode = .noError ↔ s.st ≠ .error)

/-- A block is partly written only while an image is open (R35, R303, R307, R330). -/
def fillOk (s : State) : Bool := decide (s.fill ≠ 0 → s.st = .active)

/-- Until a block has been encoded the image has produced nothing and its packer, counters and
predictor are at their START values (R37, R112). -/
def noBlockOk (s : State) : Bool :=
  decide (s.anyblk = false →
    s.prevDC = 0 ∧ s.pkN = 0 ∧ s.byteCount = 0 ∧ s.blockCount = 0)

/-- An image that has ended has at least one block and an empty packer (R118, R245). -/
def doneOk (s : State) : Bool := decide (s.st = .done → s.anyblk = true ∧ s.pkN = 0)

/-- Before the first START nothing has been encoded (R33). -/
def idleOk (s : State) : Bool := decide (s.st = .idle → s.anyblk = false)

/-- The machine's invariant. -/
def State.Inv (s : State) : Prop :=
  packerOk s = true ∧ errorOk s = true ∧ fillOk s = true ∧ noBlockOk s = true ∧ doneOk s = true ∧
    idleOk s = true ∧ stuffedBytes s.outq = true

end Sys2Proof.Machine
end

