-- ==== Sys2Proof/Certificates/Slice0/Obligations.lean ====
section
/-!
DEFINITION. The statements about the machine, from the spec's numbered rules. Each docstring names the
rule it states; where a clause is the model's own choice it names the log entry. Statements about every
state also hold in states no run reaches, or assume an invariant clause of Safety.lean.
-/

open Sys2Proof Sys2Proof.Machine

/-! ## Encoding (30_encoding.md) -/

/-- Decoding an encoded command gives it back with every operand, and a word that decodes to a command
is the word that command encodes as: no bit of a legal word is dropped (R90, R91, R96). -/
def Obligations.DecodeAndEncodeAgree : Prop :=
  (∀ i : Instr, decode (encode i) = .ok i) ∧ (∀ (w : Word) (i : Instr), decode w = .ok i → encode i = w)

/-- R92: which words are legal, that exactly those decode, and that an illegal word does nothing but
raise ILLEGAL, and in ERROR nothing at all (`afterCommand` is the model's own bookkeeping of a step). -/
def Obligations.LegalWordsDecode : Prop :=
  ∀ w : Word,
    ((∃ i, decode w = .ok i) ↔
      ((w.extractLsb' 28 4 = 0x0 ∨ w.extractLsb' 28 4 = 0x1 ∨ w.extractLsb' 28 4 = 0x4) ∧
          w.extractLsb' 0 28 = 0) ∨
        ((w.extractLsb' 28 4 = 0x2 ∨ w.extractLsb' 28 4 = 0x3) ∧ w.extractLsb' 16 12 = 0)) ∧
    (legalWord w = true ↔ ∃ i, decode w = .ok i) ∧
    ∀ s : State, legalWord w = false →
      acceptWord w s = .next (afterCommand
        (if s.st = .error then s else { s with st := .error, errcode := .illegal, fill := 0 }))

/-- R98, R302: the ways a word is illegal, and the name it is rejected by. The rules do not make the ways
exclusive; that a word illegal in two of them is named by its opcode first, then its reserved bits, is
the model's choice (log 24), and no state of the machine depends on the name. -/
def Obligations.IllegalWordReasons : Prop :=
  ∀ w : Word,
    (decode w = .error .reservedOpcode ↔ 5 ≤ (w.extractLsb' 28 4).toNat) ∧
    (decode w = .error .reservedBits ↔
      (w.extractLsb' 28 4).toNat < 5 ∧ w.extractLsb' 16 12 ≠ 0) ∧
    (decode w = .error .nonzeroData ↔
      (w.extractLsb' 28 4 = 0x0 ∨ w.extractLsb' 28 4 = 0x1 ∨ w.extractLsb' 28 4 = 0x4) ∧
        w.extractLsb' 16 12 = 0 ∧ w.extractLsb' 0 16 ≠ 0)

/-- Words written out from the opcode map decode to their commands (R91; 95_test_vectors.md V-DEC). -/
def Obligations.SpecEncodingsDecode : Prop :=
  decode 0x00000000#32 = .ok .nop ∧ decode 0x10000000#32 = .ok .start ∧
  decode 0x20000100#32 = .ok (.sample 0x0100#16) ∧ decode 0x2000FFFF#32 = .ok (.sample 0xFFFF#16) ∧
  decode 0x30007FFF#32 = .ok (.coef 0x7FFF#16) ∧ decode 0x40000000#32 = .ok .flush ∧
  decode 0x38000000#32 = .error .reservedBits ∧ decode 0x10000100#32 = .error .nonzeroData ∧
  decode 0x50000000#32 = .error .reservedOpcode

/-! ## NOP, START, FLUSH (40_commands.md) -/

/-- R111: NOP changes nothing in any state and raises nothing; a word with OPC = 0 and any other bit
set is no NOP and raises ILLEGAL where the core is not in ERROR. -/
def Obligations.NopHasNoEffect : Prop :=
  (∀ s : State, exec .nop s = .next s) ∧ encode .nop = 0x00000000#32 ∧
  ∀ (w : Word) (s : State), w.extractLsb' 28 4 = 0 → w ≠ 0 → s.st ≠ .error →
    acceptWord w s = .next (afterCommand { s with st := .error, errcode := .illegal, fill := 0 })

/-- R112: START in every state opens an image with every field of the START column; `buf` and `outq`
are unchanged, and STATUS then reads STATE = ACTIVE and every other field 0. Its word is the only one
that leaves ERROR. -/
def Obligations.StartBeginsImage : Prop :=
  encode .start = 0x10000000#32 ∧
  ∀ s : State, ∃ t : State, exec .start s = .next t ∧
    t = { s with
          st := .active, errcode := .noError, fill := 0, bmode := .sample, anyblk := false
          prevDC := 0, pkN := 0, pkBits := 0, byteCount := 0, blockCount := 0 } ∧
    exactReg Config.core t 0 = 0x00000001#32 ∧
    ∀ (w : Word) (u : State), s.st = .error → acceptWord w s = .next u → u.st ≠ .error →
      w = encode .start

/-- R118, R245, R247: FLUSH of an open image with a whole number of blocks, at least one, ends it. With
bits pending it pushes one byte, the bits padded with zeros, and never a stuffed 0x00 after it; with
none pending it pushes nothing. Everything else is unchanged. -/
def Obligations.FlushEndsImage : Prop :=
  ∀ s : State, packerOk s = true → s.st = .active → s.fill = 0 → s.anyblk = true →
    exec .flush s = .next
      { s with
        st := .done, pkN := 0, pkBits := 0
        outq := s.outq ++
          (if s.pkN = 0 then [] else [BitVec.ofNat 8 (s.pkBits.toNat * 2 ^ (8 - s.pkN.val))])
        byteCount := s.byteCount + (if s.pkN = 0 then 0 else 1) }

/-- R307: FLUSH's conditions in the order SEQ, PARTIAL, EMPTY; each raises its error and does nothing
else. -/
def Obligations.FlushErrorOrder : Prop :=
  ∀ s : State,
    (s.st = .idle ∨ s.st = .done →
      exec .flush s = .next { s with st := .error, errcode := .seq, fill := 0 }) ∧
    (s.st = .active → 1 ≤ s.fill.val →
      exec .flush s = .next { s with st := .error, errcode := .partialBlock, fill := 0 }) ∧
    (s.st = .active → s.fill = 0 → s.anyblk = false →
      exec .flush s = .next { s with st := .error, errcode := .empty, fill := 0 })

/-! ## SAMPLE and COEF (40_commands.md) -/

/-- R113, R114, R93: any DATA value is stored as a sample at natural index `fill`, in a block that is
new or was begun by SAMPLE; the block's kind becomes SAMPLE, `fill` advances, nothing else changes. -/
def Obligations.SampleStoresElement : Prop :=
  ∀ (d : Data) (s : State), s.st = .active → s.fill = 0 ∨ s.bmode = .sample → s.fill ≠ 63 →
    (s.fill + 1).val = s.fill.val + 1 ∧
    exec (.sample d) s = .next
      { s with buf := s.buf.set s.fill.val d s.fill.isLt, bmode := .sample, fill := s.fill + 1 }

/-- R113, R115, R94: the same for COEF. -/
def Obligations.CoefStoresElement : Prop :=
  ∀ (d : Data) (s : State), s.st = .active → s.fill = 0 ∨ s.bmode = .coef → s.fill ≠ 63 →
    (s.fill + 1).val = s.fill.val + 1 ∧
    exec (.coef d) s = .next
      { s with buf := s.buf.set s.fill.val d s.fill.isLt, bmode := .coef, fill := s.fill + 1 }

/-- R114, R116, R197: the 64th SAMPLE transforms the block, quantizes it with the natural-order table,
zigzags it, writes its bits and closes it. The transform is whatever conforming one the core has. -/
def Obligations.SampleBlockEncodes : Prop :=
  ∀ (d : Data) (s : State), s.st = .active → s.fill = 63 → s.bmode = .sample →
    let buf := s.buf.set 63 d
    let f : Fin 64 → ℚ := fun i => (buf[i].toInt : ℚ) / 2 ^ 8
    let q : Fin 64 → Int := fun i => quant 16 (Config.core.dct f i) (defaultQt.getD i.val 0)
    cat (q 0 - s.prevDC.toInt) ≤ 11 → (∀ i : Fin 64, i ≠ 0 → cat (q i) ≤ 10) →
    exec (.sample d) s = .next
      { packBits { s with buf := buf }
          (blockBits Config.core (fun k => q (zz k)) s.prevDC.toInt) with
        prevDC := BitVec.ofInt 16 (q 0)
        blockCount := s.blockCount + 1
        anyblk := true
        fill := 0 }

/-- R115, R116, R197: the 64th COEF zigzags the operands themselves, writes the block's bits and closes
it; `prevDC` becomes the operand at natural index 0. -/
def Obligations.CoefBlockEncodes : Prop :=
  ∀ (d : Data) (s : State), s.st = .active → s.fill = 63 → s.bmode = .coef →
    let buf := s.buf.set 63 d
    let q : Fin 64 → Int := fun i => buf[i].toInt
    cat (q 0 - s.prevDC.toInt) ≤ 11 → (∀ i : Fin 64, i ≠ 0 → cat (q i) ≤ 10) →
    exec (.coef d) s = .next
      { packBits { s with buf := buf }
          (blockBits Config.core (fun k => q (zz k)) s.prevDC.toInt) with
        prevDC := buf[0]
        blockCount := s.blockCount + 1
        anyblk := true
        fill := 0 }

/-- R117, R199, R303, R306: a block of either kind whose check fails emits nothing and leaves every other
field, `buf` among them, as it was; the core enters ERROR with DC_CAT, or with AC_CAT where only an AC
coefficient is at fault. That the refused 64th element is not in `buf` is log 10's reading: R303 against
R113's pseudocode. -/
def Obligations.BlockRefusedWhole : Prop :=
  ∀ (d : Data) (s : State), s.st = .active → s.fill = 63 →
    let q := quantizedBlock Config.core s.bmode (s.buf.set 63 d)
    (11 < cat (q 0 - s.prevDC.toInt) →
      exec (elementInstr s.bmode d) s = .next { s with st := .error, errcode := .dcCat, fill := 0 }) ∧
    (cat (q 0 - s.prevDC.toInt) ≤ 11 → (∃ i : Fin 64, i ≠ 0 ∧ 10 < cat (q i)) →
      exec (elementInstr s.bmode d) s = .next { s with st := .error, errcode := .acCat, fill := 0 })

/-- R143, R144, R166: with the default tables the 64th SAMPLE of a block always completes, whatever
the samples and whatever conforming transform the core has, when `prevDC` is within 2047 − 64 of 0; the
block's DC coefficient is within 64. (R166 and R306 say a SAMPLE block never fails under the default
table; that needs the bound on `prevDC`, which a COEF block can break: see the next statement.) -/
def Obligations.SampleBlockCompletesWithDefaultTables : Prop :=
  ∀ (d : Data) (s : State), s.st = .active → s.fill = 63 → s.bmode = .sample →
    s.prevDC.toInt.natAbs ≤ 1983 →
    ∃ t : State, exec (.sample d) s = .next t ∧ t.st = .active ∧ t.errcode = s.errcode ∧
      t.fill = 0 ∧ t.anyblk = true ∧ t.blockCount = s.blockCount + 1 ∧ t.prevDC.toInt.natAbs ≤ 64

/-- EXPECTED TO FAIL. The last sentence of R306 read over mixed images, without a bound on `prevDC`: the
64th SAMPLE of a block never raises an error under the default tables. After a COEF block with a large
DC coefficient the difference can have category 12, and R199 raises DC_CAT. -/
def Obligations.SampleBlockNeverRaisesCategoryError : Prop :=
  ∀ (d : Data) (s t : State), s.Inv → s.st = .active → s.fill = 63 → s.bmode = .sample →
    exec (.sample d) s = .next t → t.st = .active

/-! ## Errors (60_exceptions.md) -/

/-- R304: SAMPLE, COEF and FLUSH raise SEQ when the image state is IDLE or DONE, before every other
condition. -/
def Obligations.SeqErrorOutsideOpenImage : Prop :=
  ∀ (d : Data) (i : Instr) (s : State), i = .sample d ∨ i = .coef d ∨ i = .flush →
    s.st = .idle ∨ s.st = .done →
    exec i s = .next { s with st := .error, errcode := .seq, fill := 0 }

/-- R305: an element of the other kind inside a block raises MIX and is not stored; the first element
of a block fixes its kind, whatever the kind of the block before. -/
def Obligations.MixErrorInsideBlock : Prop :=
  ∀ (kind : BlockKind) (d : Data) (s : State), s.st = .active →
    (s.fill ≠ 0 → kind ≠ s.bmode →
      exec (elementInstr kind d) s = .next { s with st := .error, errcode := .mix, fill := 0 }) ∧
    (s.fill = 0 → ∃ t : State, exec (elementInstr kind d) s = .next t ∧ t.st = .active ∧
      t.bmode = kind ∧ t.fill = 1)

/-- R309: in ERROR every word but START's is accepted and ignored; START leaves ERROR, and so does
reset. -/
def Obligations.ErrorIgnoresAllButStart : Prop :=
  ∀ s : State, s.st = .error →
    (∀ i : Instr, i ≠ .start → exec i s = .next s) ∧
    (∀ w : Word, w ≠ 0x10000000#32 → acceptWord w s = .next (afterCommand s)) ∧
    (∃ t : State, exec .start s = .next t ∧ t.st = .active ∧ t.errcode = .noError) ∧
    (resetCore s).st = .idle ∧ (resetCore s).errcode = .noError

/-- R34, R303, R309, R313, over whole steps: a core in ERROR stays there with its first error code, with
every architected field unchanged but for bytes of `outq` that are delivered, and with no new byte, in
every step but one that accepts the word of START or is an edge of reset. -/
def Obligations.ErrorHeldUntilStartOrReset : Prop :=
  ∀ s t : State, s.st = .error → step s = .next t →
    (t.st = .error ∧ t.errcode = s.errcode ∧ t.fill = s.fill ∧ t.prevDC = s.prevDC ∧
      t.byteCount = s.byteCount ∧ t.blockCount = s.blockCount ∧ t.pkN = s.pkN ∧
      t.pkBits = s.pkBits ∧ t.anyblk = s.anyblk ∧ t.bmode = s.bmode ∧ t.buf = s.buf ∧
      t.rxBytes ++ t.outq = s.rxBytes ++ s.outq) ∨
    (∃ rest, s.cmdq = 0x10000000#32 :: rest ∧ t.cmdq = rest ∧ t.st = .active) ∨
    (s.acts.head? = some .reset ∧ t.st = .idle)

/-- R303, R312: a command, or an illegal word, that raises an error writes `st`, `errcode` and `fill` and
nothing else, `buf` and `outq` among what is kept; then STATUS shows ERROR and the code, and `err_o`
is 1. That a refused 64th element is not in `buf` is log 10's reading: R303 against R113's pseudocode.
(`afterCommand` is the model's own bookkeeping of a step.) -/
def Obligations.ErrorLeavesRestUnchanged : Prop :=
  ∀ s t : State, s.st ≠ .error → t.st = .error →
    (∀ i : Instr, exec i s = .next t →
      t = { s with st := .error, errcode := t.errcode, fill := 0 } ∧ t.errcode ≠ .noError) ∧
    (∀ w : Word, acceptWord w s = .next t →
      t = afterCommand { s with st := .error, errcode := t.errcode, fill := 0 } ∧
      t.errcode ≠ .noError) ∧
    errOut t = true ∧ (exactReg Config.core t 0).extractLsb' 0 2 = 3 ∧
    (exactReg Config.core t 0).extractLsb' 4 4 = t.errcode.code

/-- R33, over whole steps: only an accepted START, an accepted FLUSH of an open image, a failure, and
reset change the image state, and each to the state the rule names. -/
def Obligations.ImageStateChangers : Prop :=
  ∀ s t : State, step s = .next t → t.st ≠ s.st →
    (s.acts.head? = some .reset ∧ t.st = .idle) ∨
    (∃ w rest, s.cmdq = w :: rest ∧ t.cmdq = rest ∧
      ((w = 0x10000000#32 ∧ t.st = .active) ∨
        (w = 0x40000000#32 ∧ s.st = .active ∧ t.st = .done) ∨
        (w ≠ 0x10000000#32 ∧ w ≠ 0x00000000#32 ∧ s.st ≠ .error ∧ t.st = .error ∧
          t.errcode ≠ .noError)))

/-! ## The bit packer (45_bitpacker.md) -/

/-- R241, R243, R244, R249, R250: the packer keeps the logical bitstream. Whatever is written, in one
write or in two, the bytes pushed, read with their stuffing removed, and the bits still pending are the
old pending bits followed by the new ones; every 0xFF pushed is followed by its 0x00; `byte_count` counts
the bytes pushed (R246), and only the packer's own fields change. -/
def Obligations.PackerKeepsLogicalBitstream : Prop :=
  ∀ (s : State) (bs cs : List Bool), packerOk s = true →
    packBits s (bs ++ cs) = packBits (packBits s bs) cs ∧
    packerOk (packBits s bs) = true ∧
    ∃ pushed : List Byte, stuffedBytes pushed = true ∧
      packBits s bs =
        { s with
          pkN := (packBits s bs).pkN, pkBits := (packBits s bs).pkBits
          outq := s.outq ++ pushed, byteCount := s.byteCount + BitVec.ofNat 32 pushed.length } ∧
      bytesBits (unstuff pushed) ++ pendingBits (packBits s bs) = pendingBits s ++ bs

/-- R248, of the model's own rendering `accWrite` of the rule's whole-code packer (log 21): an accumulator of any width that can take the write gives the same bytes, the same count and
the same pending bits as the bit-by-bit packer: its width is not observable. -/
def Obligations.AccumulatorWidthUnobservable : Prop :=
  ∀ (width c L : Nat) (s : State), packerOk s = true → 7 + L ≤ width →
    accWrite width s c L = packWrite s c L

/-- R250, R346: the bytes that any writes push are at most two for every eight bits completed. With the
core's tables one command completes at most 208 bytes and pushes at most 416; a block is encoded only by
its 64th element, a command writes at most one element, the host sends a block as 64 words, and a step
transfers at most one. (R346 counts cycles where this counts transfers: the model has no clock, log 11.) -/
def Obligations.PackerOutputBound : Prop :=
  (∀ (s : State) (bs : List Bool),
    (packBits s bs).outq.length ≤ s.outq.length + 2 * ((s.pkN.val + bs.length) / 8)) ∧
  blockByteBound Config.core = 208 ∧ blockOutputBound Config.core = 416 ∧ blockTransfers = 64 ∧
  (∀ (i : Instr) (s t : State), exec i s = .next t →
    ∃ pushed : List Byte, t.outq = s.outq ++ pushed ∧
      (unstuff pushed).length ≤ blockByteBound Config.core ∧
      pushed.length ≤ blockOutputBound Config.core) ∧
  (∀ (i : Instr) (s t : State), i ≠ .start → exec i s = .next t →
    (t.blockCount = s.blockCount ∧ t.fill.val ≤ s.fill.val + 1) ∨
      (s.fill.val + 1 = blockTransfers ∧ t.fill = 0 ∧ t.blockCount = s.blockCount + 1 ∧
        ∃ d : Data, i = .sample d ∨ i = .coef d)) ∧
  (∀ (cfg : Config) (block : HostBlock ℝ) (words : List Word), blockWords cfg block = some words →
    words.length = blockTransfers) ∧
  ∀ s t : State, step s = .next t → s.cmdq.length ≤ t.cmdq.length + 1

/-- R244: one byte emitted pushes itself, and 0x00 right after a 0xFF; `byte_count` counts both. -/
def Obligations.EmitByteStuffsFF : Prop :=
  ∀ (b : Byte) (s : State),
    (b = 0xFF → emitByte b s =
      { s with outq := s.outq ++ [0xFF, 0x00], byteCount := s.byteCount + 1 + 1 }) ∧
    (b ≠ 0xFF → emitByte b s = { s with outq := s.outq ++ [b], byteCount := s.byteCount + 1 })

/-- R40, R246: a command other than START pushes a sequence of bytes at the tail of `outq`, counts
exactly them, and pushes none where it ends in ERROR. -/
def Obligations.ByteCountCountsPushedBytes : Prop :=
  ∀ (i : Instr) (s t : State), i ≠ .start → exec i s = .next t →
    ∃ pushed : List Byte, t.outq = s.outq ++ pushed ∧
      t.byteCount = s.byteCount + BitVec.ofNat 32 pushed.length ∧ (t.st = .error → pushed = [])

/-! ## The entropy coder (44_entropy.md) -/

/-- R191: category n is the range 2^(n−1) to 2^n − 1 of magnitudes, on the exact integer. -/
def Obligations.CategoryIsBitLength : Prop :=
  cat 0 = 0 ∧ cat 1 = 1 ∧ cat (-1) = 1 ∧ cat (-32768) = 16 ∧ cat 65535 = 16 ∧
  ∀ (v : Int) (n : Nat), 1 ≤ n → (cat v = n ↔ 2 ^ (n - 1) ≤ v.natAbs ∧ v.natAbs ≤ 2 ^ n - 1)

/-- R192: the value bits, in the rule's equal forms, with as many bits as the category. -/
def Obligations.ValueBitsOnesComplement : Prop :=
  ∀ v : Int,
    valueBits v = codeBits (vbits v) (cat v) ∧ (valueBits 0 = []) ∧
    (0 ≤ v → (vbits v : Int) = v) ∧
    (v < 0 → (vbits v : Int) = v + 2 ^ cat v - 1 ∧ (vbits v : Int) = (v - 1) % 2 ^ cat v ∧
      vbits v = (2 ^ cat v - 1) - v.natAbs)

/-- R193, R194: decoding the emitted length and bits gives the value back, for every integer; the
leading bit of a nonzero value is 1 exactly when the value is positive. -/
def Obligations.VliRoundTrip : Prop :=
  ∀ v : Int,
    (valueBits v).length = cat v ∧ bitsValue (valueBits v) = vbits v ∧
    vliDecode (cat v) (bitsValue (valueBits v)) = v ∧
    (v ≠ 0 → (valueBits v).head? = some (decide (0 < v)))

/-- R199: what the entropy check answers, in all three cases; the difference is exact (R195), and an AC
coefficient counts whatever its position. -/
def Obligations.EntropyCheckOutcomes : Prop :=
  ∀ (z : Fin 64 → Int) (prevDC : Int),
    (entropyCheck z prevDC = some .dcCat ↔ 11 < cat (z 0 - prevDC)) ∧
    (entropyCheck z prevDC = some .acCat ↔
      cat (z 0 - prevDC) ≤ 11 ∧ ∃ k : Fin 64, k ≠ 0 ∧ 10 < cat (z k)) ∧
    (entropyCheck z prevDC = none ↔
      cat (z 0 - prevDC) ≤ 11 ∧ ∀ k : Fin 64, k ≠ 0 → cat (z k) ≤ 10)

/-- R198, R200, R201 (a), (b): a block's bits are its DC part and then the scan of z[1..63] in order,
with no zeros counted yet; in the scan, a run of r zeros before a nonzero value gives r/16 ZRL symbols, then the symbol
of what is left of the run and the value's category, then the value bits; a trailing run gives one EOB
and no ZRL. -/
def Obligations.RunLengthSymbols : Prop :=
  ∀ (cfg : Config) (r : Nat),
    (∀ (z : Fin 64 → Int) (prevDC : Int),
      blockBits cfg z prevDC =
        codeBits (cfg.dchuf (cat (z 0 - prevDC))).code (cfg.dchuf (cat (z 0 - prevDC))).len ++
        codeBits (vbits (z 0 - prevDC)) (cat (z 0 - prevDC)) ++
        acBits cfg 0 (List.ofFn fun k : Fin 63 => z k.succ)) ∧
    (∀ (v : Int) (rest : List Int), v ≠ 0 →
      acBits cfg 0 (List.replicate r 0 ++ v :: rest) =
        (List.replicate (r / 16) (codeBits (cfg.achuf 0xF0).code (cfg.achuf 0xF0).len)).flatten ++
        codeBits (cfg.achuf (r % 16 * 16 + cat v)).code (cfg.achuf (r % 16 * 16 + cat v)).len ++
        codeBits (vbits v) (cat v) ++ acBits cfg 0 rest) ∧
    acBits cfg 0 (List.replicate r 0) =
      if r = 0 then [] else codeBits (cfg.achuf 0x00).code (cfg.achuf 0x00).len

/-- R201 (c), (d): a block whose coefficient at position 63 is zero ends with EOB; one whose coefficient
there is nonzero ends with that coefficient's value bits; with every AC coefficient zero the block is
its DC part and one EOB. -/
def Obligations.EndOfBlockOnlyAfterZero : Prop :=
  ∀ (cfg : Config) (z : Fin 64 → Int) (prevDC : Int),
    (z 63 = 0 → ∃ body, blockBits cfg z prevDC = body ++ (cfg.achuf 0x00).bits ∧
      (dcBits cfg (z 0 - prevDC)) <+: body) ∧
    (z 63 ≠ 0 → ∃ body run, run < 16 ∧ blockBits cfg z prevDC =
      body ++ (cfg.achuf (run * 16 + cat (z 63))).bits ++ valueBits (z 63)) ∧
    ((∀ k : Fin 64, k ≠ 0 → z k = 0) →
      blockBits cfg z prevDC = dcBits cfg (z 0 - prevDC) ++ (cfg.achuf 0x00).bits)

/-- R201 (e), R208: in a well-formed configuration every symbol the coder can look up has a code of 1 to
16 bits whose value is below 2^len. -/
def Obligations.LookedUpSymbolsHaveCodes : Prop :=
  ∀ cfg : Config, cfg.WellFormed = true →
    (∀ c : Nat, c ≤ 11 → 1 ≤ (cfg.dchuf c).len ∧ (cfg.dchuf c).len ≤ 16 ∧
      (cfg.dchuf c).code < 2 ^ (cfg.dchuf c).len) ∧
    (∀ sym : Nat, sym = 0x00 ∨ sym = 0xF0 ∨
        (∃ r c : Nat, r < 16 ∧ 1 ≤ c ∧ c ≤ 10 ∧ sym = r * 16 + c) →
      1 ≤ (cfg.achuf sym).len ∧ (cfg.achuf sym).len ≤ 16 ∧
        (cfg.achuf sym).code < 2 ^ (cfg.achuf sym).len)

/-- R207, R208: in a well-formed configuration no code the coder can look up begins another one of the
same table. -/
def Obligations.HuffmanCodesPrefixFree : Prop :=
  ∀ cfg : Config, cfg.WellFormed = true →
    (∀ a ∈ dcSymbols, ∀ b ∈ dcSymbols, a ≠ b → ¬ (cfg.dchuf a).bits <+: (cfg.dchuf b).bits) ∧
    (∀ a ∈ acSymbols, ∀ b ∈ acSymbols, a ≠ b → ¬ (cfg.achuf a).bits <+: (cfg.achuf b).bits)

/-- The bits of a block determine it: in a well-formed configuration, two blocks that pass the check
after the same `prevDC`, whose bits begin the same bitstream, are the same block, and the bitstream goes
on from the same place. It is what R200, R201 and R208 together are for. -/
def Obligations.BlockBitsUniquelyDecodable : Prop :=
  ∀ (cfg : Config) (y z : Fin 64 → Int) (prevDC : Int) (afterY afterZ : List Bool),
    cfg.WellFormed = true → entropyCheck y prevDC = none → entropyCheck z prevDC = none →
    blockBits cfg y prevDC ++ afterY = blockBits cfg z prevDC ++ afterZ → y = z ∧ afterY = afterZ

/-- R202: the bound on a block's bits, for every configuration's tables, and its value with the default
ones. -/
def Obligations.BlockBitsBounded : Prop :=
  blockBitsBound Config.core = 1658 ∧
  ∀ (cfg : Config) (z : Fin 64 → Int) (prevDC : Int), entropyCheck z prevDC = none →
    (blockBits cfg z prevDC).length ≤ blockBitsBound cfg

/-- R205, R206, R207: the codes of the default tables, built from their histograms and symbol lists: the
whole DC table, EOB, ZRL, the column of category 1 of the AC table (runs 0 to 15), the last code, and
symbols without a code. -/
def Obligations.DefaultTableCodes : Prop :=
  (List.range 16).map Config.core.dchuf =
    [⟨0b00, 2⟩, ⟨0b010, 3⟩, ⟨0b011, 3⟩, ⟨0b100, 3⟩, ⟨0b101, 3⟩, ⟨0b110, 3⟩, ⟨0b1110, 4⟩,
      ⟨0b11110, 5⟩, ⟨0b111110, 6⟩, ⟨0b1111110, 7⟩, ⟨0b11111110, 8⟩, ⟨0b111111110, 9⟩,
      ⟨0, 0⟩, ⟨0, 0⟩, ⟨0, 0⟩, ⟨0, 0⟩] ∧
  (List.range 16).map (fun run => Config.core.achuf (run * 16 + 1)) =
    [⟨0b00, 2⟩, ⟨0b1100, 4⟩, ⟨0b11100, 5⟩, ⟨0b111010, 6⟩, ⟨0b111011, 6⟩, ⟨0b1111010, 7⟩,
      ⟨0b1111011, 7⟩, ⟨0b11111010, 8⟩, ⟨0b111111000, 9⟩, ⟨0b111111001, 9⟩, ⟨0b111111010, 9⟩,
      ⟨0b1111111001, 10⟩, ⟨0b1111111010, 10⟩, ⟨0b11111111000, 11⟩, ⟨0b1111111111101011, 16⟩,
      ⟨0b1111111111110101, 16⟩] ∧
  Config.core.achuf 0x00 = ⟨0b1010, 4⟩ ∧ Config.core.achuf 0xF0 = ⟨0b11111111001, 11⟩ ∧
  Config.core.achuf 0xFA = ⟨0b1111111111111110, 16⟩ ∧
  (Config.core.achuf 0x10).len = 0 ∧ (Config.core.achuf 0x0B).len = 0

/-! ## Zigzag, quantizer, transform (43, 42, 41) -/

/-- R181, R183: the map is the diagonal scan; its inverse gives each natural index the one position
that holds it; applying the map and then its inverse, in either order, gives every 64-element sequence
back. -/
def Obligations.ZigzagRoundTrip : Prop :=
  (List.finRange 64).map (fun k => (zz k).val) = zzScan ∧
  (∀ n k : Fin 64, zz k = n ↔ k = zzInv n) ∧
  ∀ a : Fin 64 → Int, unzigzag (zigzag a) = a ∧ zigzag (unzigzag a) = a

/-- R161: the quantizer is `round_half_away` of the exact quotient. -/
def Obligations.QuantizerRoundsHalfAway : Prop :=
  ∀ (coefFracBits : Nat) (c : Int) (qd : Nat), 1 ≤ qd →
    quant coefFracBits c qd = roundHalfAway ((c : ℚ) / (2 ^ coefFracBits * qd))

/-- R162: an exact half goes away from zero, less than a half gives 0, and the result has the
coefficient's sign or is 0. -/
def Obligations.QuantizerCornerCases : Prop :=
  ∀ (coefFracBits : Nat) (c : Int) (qd n : Nat), 1 ≤ qd →
    (2 * c.natAbs = (2 * n + 1) * (qd * 2 ^ coefFracBits) → (quant coefFracBits c qd).natAbs = n + 1) ∧
    (2 * c.natAbs < qd * 2 ^ coefFracBits → quant coefFracBits c qd = 0) ∧
    (0 < c → 0 ≤ quant coefFracBits c qd) ∧ (c < 0 → quant coefFracBits c qd ≤ 0)

/-- R144: samples within 128 give exact coefficients within 1024. So every coefficient of a conforming
transform fits 12 integer bits and `COEF_FRAC_BITS` fraction bits, signed; in a well-formed configuration
those fit the stage's 32-bit output register, which then holds the coefficient itself; and with the
default fraction bits 28 bits suffice. -/
def Obligations.CoefficientRange : Prop :=
  (∀ (f : Fin 64 → ℚ) (u v : Fin 8), (∀ i, |f i| ≤ 128) → |dctDirect f u v| ≤ 1024) ∧
  (∀ (cfg : Config) (buf : Vector Data 64) (i : Fin 64), cfg.WellFormed = true → cfg.DctWithinTol →
    8 ≤ cfg.sampleFracBits → cfg.dctTol < 1 / 2 →
    let c := cfg.dct (blockSamples cfg buf) i
    c < 2 ^ (11 + cfg.coefFracBits) ∧ -(2 : Int) ^ (11 + cfg.coefFracBits) ≤ c ∧
      (stageOutput cfg (blockSamples cfg buf) i).toInt = c) ∧
  ∀ (buf : Vector Data 64) (i : Fin 64),
    let c := Config.core.dct (blockSamples Config.core buf) i
    c < 2 ^ 27 ∧ -(2 : Int) ^ 27 ≤ c ∧
      (stageOutput Config.core (blockSamples Config.core buf) i).toInt = c

/-- R148: an all-equal block has one nonzero coefficient, 8k at (0,0), and every conforming transform
returns it to within the tolerance. -/
def Obligations.AllEqualBlockTransform : Prop :=
  (∀ (k : ℚ) (u v : Fin 8),
    dctDirect (fun _ => k) u v = if u = 0 ∧ v = 0 then 8 * (k : ℝ) else 0) ∧
  ∀ (cfg : Config) (d : Data) (i : Fin 64), cfg.DctWithinTol →
    |(cfg.dct (fun _ => sampleValue cfg.sampleFracBits d) i : ℝ) / 2 ^ cfg.coefFracBits
      - (if i = 0 then 8 * (sampleValue cfg.sampleFracBits d : ℝ) else 0)| ≤ (cfg.dctTol : ℝ)

/-- R143, R144, R161, R166: the quantized values of a SAMPLE block, for every well-formed configuration
with Q8.8 samples and a tolerance below 1/2, and with the core's own tables. -/
def Obligations.QuantizedSampleRange : Prop :=
  (∀ (cfg : Config) (buf : Vector Data 64) (i : Fin 64), cfg.WellFormed = true → cfg.DctWithinTol →
    cfg.sampleFracBits = 8 → cfg.dctTol < 1 / 2 →
    (quantizedBlock cfg .sample buf i).natAbs ≤ 1024) ∧
  ∀ (buf : Vector Data 64) (i : Fin 64),
    (quantizedBlock Config.core .sample buf i).natAbs ≤ if i = 0 then 64 else 102

/-! ## Registers and quiescence (10_state.md, 20_memory.md) -/

/-- R44, R32, R301: the fields of STATUS, the codes of STATE, ERRCODE and BMODE, and the reserved bits, which read 0; after reset STATUS
reads 0. -/
def Obligations.StatusRegisterFields : Prop :=
  (∀ (busyBit : Bool) (s : State),
    let r := statusWord busyBit s
    r.extractLsb' 0 2 = s.st.code ∧ r.getLsbD 2 = busyBit ∧ r.getLsbD 3 = false ∧
    r.extractLsb' 4 4 = s.errcode.code ∧ (r.extractLsb' 8 6).toNat = s.fill.val ∧
    r.extractLsb' 14 1 = s.bmode.code ∧ r.getLsbD 15 = s.anyblk ∧ r.extractLsb' 16 16 = 0) ∧
  (∀ s : State, busy s = false → readPort Config.core s 0 = statusWord false s) ∧
  (∀ s : State, busy s = true → (readPort Config.core s 0).getLsbD 2 = true) ∧
  readPort Config.core State.reset 0 = 0 ∧
  [ImageState.idle.code, ImageState.active.code, ImageState.done.code, ImageState.error.code]
    = [0, 1, 2, 3] ∧
  [ErrorCode.noError.code, ErrorCode.illegal.code, ErrorCode.seq.code, ErrorCode.mix.code,
      ErrorCode.dcCat.code, ErrorCode.acCat.code, ErrorCode.empty.code, ErrorCode.partialBlock.code]
    = [0, 1, 2, 3, 4, 5, 6, 7] ∧
  [BlockKind.sample.code, BlockKind.coef.code] = [0, 1]

/-- R43, R45 to R51, R65, R67: a read of a quiescent core is exact at every address, and right after
reset gives the reset values; a read of STATUS while output waits shows BUSY; and the step that reads changes nothing of the core's architected
state. -/
def Obligations.ReadRegisterMap : Prop :=
  (∀ s : State, busy s = false →
    readPort Config.core s 0 = statusWord false s ∧
    readPort Config.core s 1 = s.byteCount ∧ readPort Config.core s 2 = s.blockCount ∧
    (readPort Config.core s 3).toInt = s.prevDC.toInt ∧
    (readPort Config.core s 4).toNat = s.pkN.val + 256 * s.pkBits.toNat ∧
    readPort Config.core s 5 = 0x4A504701#32 ∧
    readPort Config.core s 6 = 0 ∧ readPort Config.core s 7 = 0) ∧
  (∀ s : State, s.outq ≠ [] → (readPort Config.core s 0).getLsbD 2 = true) ∧
  (∀ addr : BitVec 3,
    readPort Config.core State.reset addr = if addr = 5 then 0x4A504701#32 else 0) ∧
  ∀ (s : State) (addr : BitVec 3) (rest : List HostAct), s.acts = .readReg addr :: rest →
    step s = .next
      { s with
        acts := rest, rdData := readPort Config.core s addr, tick := s.tick + 1
        ready := Config.readyDraw s.tick, work := s.work - 1 }

/-- R310: `done_o` and `err_o` are the levels of DONE and ERROR in every state. START and reset clear
both; over whole steps `err_o` stays until a START is accepted or an edge of reset, and `done_o` too, or
until an error is raised in DONE, where `err_o` takes its place (log 25). -/
def Obligations.DoneAndErrorLevels : Prop :=
  (∀ s : State, (doneOut s = true ↔ s.st = .done) ∧ (errOut s = true ↔ s.st = .error)) ∧
  (∀ s t : State, exec .start s = .next t → doneOut t = false ∧ errOut t = false) ∧
  (∀ s : State, doneOut (resetCore s) = false ∧ errOut (resetCore s) = false) ∧
  ∀ s t : State, step s = .next t →
    (errOut s = true → errOut t = true ∨
      (∃ rest, s.cmdq = 0x10000000#32 :: rest ∧ t.cmdq = rest) ∨ s.acts.head? = some .reset) ∧
    (doneOut s = true → doneOut t = true ∨ errOut t = true ∨
      (∃ rest, s.cmdq = 0x10000000#32 :: rest ∧ t.cmdq = rest) ∨ s.acts.head? = some .reset)

/-- R67: a quiescent core stays quiescent, with every register as it was, in every step that accepts no
command and is no edge of reset. -/
def Obligations.QuiescenceIsStable : Prop :=
  ∀ s t : State, busy s = false → step s = .next t → t.cmdq = s.cmdq →
    s.acts.head? ≠ some .reset →
    busy t = false ∧ ∀ addr : BitVec 3, readPort Config.core t addr = readPort Config.core s addr

/-- R51: with the output delivered and no command sent, BUSY reads 0 after finitely many steps, and no
architected state has changed by then. -/
def Obligations.BusyClearsWithoutCommands : Prop :=
  ∀ s : State, s.outq = [] → s.acts = [] → s.cmdq = [] →
    ∃ (k : Nat) (t : State), Host.Core.run core k s = .next t ∧ busy t = false ∧
      t = { s with work := t.work, tick := t.tick, ready := t.ready }

/-! ## The step and the ports (20_memory.md, 70_reset_and_hazards.md) -/

/-- R62, R110, R336: a step in which the command channel has its turn and the core accepts is exactly
the command's own effect at the state without that word, and the model's bookkeeping of a step; an
illegal word's step is ILLEGAL's. The turn is the channel's when the host does nothing else, tries a
command, or sends one with no output waiting. -/
def Obligations.StepRunsAcceptedCommand : Prop :=
  ∀ (s u : State) (w : Word) (words : List Word), s.cmdq = w :: words →
    s.outq = [] ∨ s.ready = true →
    (s.acts = [] ∧ u = { s with cmdq := words }) ∨
      (∃ rest, s.acts = .tryCommand :: rest ∧ u = { s with cmdq := words, acts := rest }) ∨
      (∃ rest, s.outq = [] ∧ s.acts = .sendCommand :: rest ∧
        u = { s with cmdq := words, acts := rest }) →
    (∀ (i : Instr) (t : State), decode w = .ok i → exec i u = .next t →
      step s = .next
        { t with
          tick := t.tick + 1, ready := Config.readyDraw t.tick, work := Config.workDraw t.tick }) ∧
    (∀ why, decode w = .error why → step s = .next (afterCommand (takeIllegal u)))

/-- R97, log 8: an instruction placed by `withFetchWord` is the one the very next step runs, from every
state. -/
def Obligations.FetchWordIsNextCommand : Prop :=
  ∀ (s t : State) (nbits w : Nat) (i : Instr), decodeTableWord nbits w = some i →
    exec i { s with ready := true } = .next t →
    step (s.withFetchWord nbits w) = .next (afterCommand t)

/-- R32, R311, R330, R333: an edge of reset sets the architected state to the reset column, discards the
undelivered bytes and accepts no command; what the host offers stays offered. `buf` is unspecified by
the rule and unchanged in the model (log 1). -/
def Obligations.ResetEdge : Prop :=
  ∀ (s : State) (rest : List HostAct), s.acts = .reset :: rest →
    ∃ t : State, step s = .next t ∧
      t = { s with
            acts := rest, st := .idle, errcode := .noError, fill := 0, bmode := .sample
            anyblk := false, prevDC := 0, pkN := 0, pkBits := 0, byteCount := 0, blockCount := 0
            outq := [], work := 0, tick := s.tick + 1, ready := Config.readyDraw s.tick } ∧
      readPort Config.core t 0 = 0 ∧ readPort Config.core t 5 = 0x4A504701#32 ∧
      doneOut t = false ∧ errOut t = false ∧
      cmdReadyOut true s = false ∧ outValidOut true s = false

/-- R63: whether the next word is accepted does not depend on the word. That with `outq` empty the very
next turn of the command channel accepts it is the model's choice (log 3): the rule says that the
accepting step is then enabled and that acceptance comes eventually. -/
def Obligations.AcceptanceIgnoresTheWord : Prop :=
  ∀ (s : State) (w v : Word) (rest : List Word) (t u : State),
    step { s with cmdq := w :: rest } = .next t → step { s with cmdq := v :: rest } = .next u →
    (t.cmdq = rest ↔ u.cmdq = rest) ∧
    (s.acts = [] → s.outq = [] → t.cmdq = rest)

/-- R64, R68: no byte is dropped, duplicated or reordered. In every step but an edge of reset the bytes
received and the bytes waiting, taken together, only grow at the end; and a byte is received only from
the head of the waiting ones, which leaves every other register as it was. -/
def Obligations.BytesDeliveredOnceInOrder : Prop :=
  ∀ s t : State, step s = .next t → s.acts.head? ≠ some .reset →
    s.rxBytes ++ s.outq <+: t.rxBytes ++ t.outq ∧
    (t.rxBytes = s.rxBytes ∨
      ∃ b, s.outq = b :: t.outq ∧ t.rxBytes = s.rxBytes ++ [b] ∧ t.cmdq = s.cmdq ∧
        exactReg Config.core t 0 = exactReg Config.core s 0 ∧ t.byteCount = s.byteCount ∧
        t.blockCount = s.blockCount ∧ t.prevDC = s.prevDC ∧ t.pkN = s.pkN ∧ t.pkBits = s.pkBits ∧
        t.buf = s.buf)

/-- R101, R64: `DRAIN` ends with the output queue empty and every byte that was in it delivered in
order, with no command accepted meanwhile. That it takes one step for each byte and one more is the
model's (logs 11 and 15: one act of the host's loop a step). -/
def Obligations.DrainDeliversAll : Prop :=
  ∀ (s : State) (rest : List HostAct), s.acts = .drain :: rest →
    ∃ t : State, Host.Core.run core (s.outq.length + 1) s = .next t ∧
      t = { s with
            acts := rest, outq := [], rxBytes := s.rxBytes ++ s.outq
            work := t.work, tick := t.tick, ready := t.ready }

/-- R34, R37 to R41, R250: every step keeps the invariant of Safety.lean: the packer's pending bits fit
their count, `errcode` is 0 exactly outside ERROR, a block is partly written only in an open image, an
image without a block has produced nothing, and every 0xFF waiting in `outq` is followed by 0x00. -/
def Obligations.InvariantKeptByStep : Prop :=
  ∀ s t : State, s.Inv → step s = .next t → t.Inv

/-- The invariant holds right after reset (R32, R330). -/
def Obligations.InvariantAtReset : Prop := State.reset.Inv

/-- R36, R331: elements of `buf` that the current block has not written yet never influence anything
else: two states that differ only there take steps to states that differ only there. -/
def Obligations.UnwrittenBufferUnobservable : Prop :=
  ∀ s s' t t' : State,
    s' = { s with buf := s'.buf } → (∀ j : Fin 64, j < s.fill → s'.buf[j] = s.buf[j]) →
    step s = .next t → step s' = .next t' →
    t' = { t with buf := t'.buf } ∧ ∀ j : Fin 64, j < t.fill → t'.buf[j] = t.buf[j]

/-! ## The host's side (48_host_side.md, 30_encoding.md) -/

/-- R261 to R264: segmentation of a plane of real samples gives ceil(w/8)·ceil(h/8) blocks in raster order, each with its coordinates
clamped to the last valid ones; it reads no sample outside the plane, and for dimensions that are
multiples of 8 clamps none. -/
def Obligations.SegmentationClampsAtEdges : Prop :=
  ∀ p p' : Plane ℝ, p.width ≠ 0 → p.height ≠ 0 → p'.width = p.width → p'.height = p.height →
    (∀ X Y : Nat, X < p.width → Y < p.height → p'.sample X Y = p.sample X Y) →
    p.segment.length = ((p.width + 7) / 8) * ((p.height + 7) / 8) ∧ p'.segment = p.segment ∧
    (∀ bx bY : Nat, bx < (p.width + 7) / 8 → bY < (p.height + 7) / 8 →
      p.segment[bY * ((p.width + 7) / 8) + bx]? = some (p.block bx bY) ∧
      ∀ x y : Fin 8, p.block bx bY (natIndex y x) =
        p.sample (min (bx * 8 + x.val) (p.width - 1)) (min (bY * 8 + y.val) (p.height - 1))) ∧
    (p.width % 8 = 0 → p.height % 8 = 0 →
      p.segment.length = (p.width / 8) * (p.height / 8) ∧
      ∀ bx bY : Nat, bx < p.width / 8 → bY < p.height / 8 →
        ∀ x y : Fin 8, p.block bx bY (natIndex y x) = p.sample (bx * 8 + x.val) (bY * 8 + y.val))

/-- R267, R272, R278, R282, R283, R285: with the core's tables a file opens with FF D8, carries the scan
verbatim after 328 bytes, closes with FF D9, and is 330 bytes longer than the scan. A host that reads
STATE = DONE writes the file of the bytes delivered; one that reads any other STATE keeps none of them and
writes no file. -/
def Obligations.ContainerFramesScan : Prop :=
  (∀ (width height : Nat) (status : Word) (delivered : List Byte),
    imageFile Config.core width height (imageReport status delivered) =
      if status.extractLsb' 0 2 = ImageState.done.code then
        containerFile Config.core width height delivered
      else none) ∧
  ∀ (width height : Nat) (scan : List Byte),
    1 ≤ width → width ≤ 65535 → 1 ≤ height → height ≤ 65535 →
    ∃ file : List Byte, containerFile Config.core width height scan = some file ∧
      file.length = 330 + scan.length ∧ file.take 2 = [0xFF, 0xD8] ∧
      (file.drop 328).take scan.length = scan ∧ file.drop (328 + scan.length) = [0xFF, 0xD9]

/-- R99, R100, R265, R267: no line of the assembly syntax but `.word` spells an illegal word, and a block
line spells 64 words; an image the host sends, of blocks of either kind, is START, 64 element commands for
each block, and FLUSH; and a real sample in range is sent as an operand within half a step of it. -/
def Obligations.AssembledWordsAreLegal : Prop :=
  (∀ (cfg : Config) (width height : Nat) (blocks : List (HostBlock ℝ)) (words : List Word),
    imageCommands cfg width height blocks = some words →
    ∃ body : List Word, words = encode .start :: body ++ [encode .flush] ∧
      blocks.length = ((width + 7) / 8) * ((height + 7) / 8) ∧ body.length = 64 * blocks.length ∧
      (∀ w ∈ body, ∃ d : Data, decode w = .ok (.sample d) ∨ decode w = .ok (.coef d)) ∧
      ∀ w ∈ words, legalWord w = true) ∧
  (∀ (fracBits : Nat) (s : ℝ), sampleInRange fracBits s = true →
    |((sampleOperand fracBits s).toInt : ℝ) - s * 2 ^ fracBits| ≤ 1 / 2) ∧
  ∀ (cfg : Config) (line : AsmLine) (words : List Word), (∀ w : Word, line ≠ .word w) →
    asmWords cfg line = some words →
    (∀ w ∈ words, legalWord w = true) ∧
    (∀ samples, line = .blockS samples → words.length = 64) ∧
    (∀ coefs, line = .blockC coefs → words.length = 64) ∧
    (∀ entries, line = .blockCSparse entries → words.length = 64) ∧
    (∀ s, line = .blockSFill s → words.length = 64)
end

