-- ==== Sys2Proof/Laws/Arith.lean ====
section
/-!
SUPPORT. Small facts about the exact arithmetic: lengths of bit strings and the bounds that define
`bitlen` (00_scope.md R13, R15).
-/

namespace Sys2Proof.Machine

@[simp] theorem codeBits_length (c L : Nat) : (codeBits c L).length = L := by
  induction L with
  | zero => rfl
  | succ L ih => simp [codeBits, ih]

@[simp] theorem codeBits_zero (c : Nat) : codeBits c 0 = [] := rfl

@[simp] theorem valueBits_length (v : Int) : (valueBits v).length = cat v := by simp [valueBits]

/-- A number is below `2^L` exactly when its `bitlen` is at most `L`: the definition of R13. -/
theorem bitlen_le_iff (n L : Nat) : bitlen n ≤ L ↔ n < 2 ^ L := by
  unfold bitlen
  split
  · next h => subst h; simp
  · next h => rw [Nat.succ_le_iff, Nat.log2_lt h]

theorem bitlen_pos {n : Nat} (h : n ≠ 0) : 0 < bitlen n := by simp [bitlen, h]

@[simp] theorem bitlen_zero : bitlen 0 = 0 := rfl

@[simp] theorem cat_zero : cat 0 = 0 := rfl

theorem cat_le_iff (v : Int) (L : Nat) : cat v ≤ L ↔ v.natAbs < 2 ^ L := bitlen_le_iff _ _

@[simp] theorem valueBits_zero : valueBits 0 = [] := rfl

end Sys2Proof.Machine
end

