-- ==== Sys2Proof/Laws/Config.lean ====
section
/-!
SUPPORT. The configuration of the core is well formed (44_entropy.md R208: "The default tables of rules
R205 and R206 are well-formed"; 42_quantizer.md R163, R165).
-/

namespace Sys2Proof

theorem defaultQt_ok : Config.core.qtOk = true := by decide +kernel

theorem defaultHuffman_ok : Config.core.huffmanOk = true := by decide +kernel

theorem core_widths_ok : Config.core.widthsOk = true := by decide

theorem core_wellFormed : Config.core.WellFormed = true := by
  unfold Config.WellFormed
  rw [defaultQt_ok, defaultHuffman_ok, core_widths_ok]
  rfl

end Sys2Proof
end

