-- ==== Sys2Proof/Laws/State.lean ====
section
/-!
SUPPORT. One lemma for each field of State and each whole-state update: what the update leaves in the
field. True by unfolding once, here, so that no later proof unfolds a record update.
-/

namespace Sys2Proof.Machine

variable (s : State)

@[simp] theorem raiseError_st (e : ErrorCode) : (raiseError e s).st = .error := rfl
@[simp] theorem raiseError_errcode (e : ErrorCode) : (raiseError e s).errcode = e := rfl
@[simp] theorem raiseError_buf (e : ErrorCode) : (raiseError e s).buf = s.buf := rfl
@[simp] theorem raiseError_fill (e : ErrorCode) : (raiseError e s).fill = 0 := rfl
@[simp] theorem raiseError_bmode (e : ErrorCode) : (raiseError e s).bmode = s.bmode := rfl
@[simp] theorem raiseError_anyblk (e : ErrorCode) : (raiseError e s).anyblk = s.anyblk := rfl
@[simp] theorem raiseError_prevDC (e : ErrorCode) : (raiseError e s).prevDC = s.prevDC := rfl
@[simp] theorem raiseError_pkN (e : ErrorCode) : (raiseError e s).pkN = s.pkN := rfl
@[simp] theorem raiseError_pkBits (e : ErrorCode) : (raiseError e s).pkBits = s.pkBits := rfl
@[simp] theorem raiseError_byteCount (e : ErrorCode) : (raiseError e s).byteCount = s.byteCount := rfl
@[simp] theorem raiseError_blockCount (e : ErrorCode) : (raiseError e s).blockCount = s.blockCount := rfl
@[simp] theorem raiseError_outq (e : ErrorCode) : (raiseError e s).outq = s.outq := rfl
@[simp] theorem raiseError_cmdq (e : ErrorCode) : (raiseError e s).cmdq = s.cmdq := rfl
@[simp] theorem raiseError_acts (e : ErrorCode) : (raiseError e s).acts = s.acts := rfl
@[simp] theorem raiseError_ready (e : ErrorCode) : (raiseError e s).ready = s.ready := rfl
@[simp] theorem raiseError_work (e : ErrorCode) : (raiseError e s).work = s.work := rfl
@[simp] theorem raiseError_tick (e : ErrorCode) : (raiseError e s).tick = s.tick := rfl
@[simp] theorem raiseError_rxBytes (e : ErrorCode) : (raiseError e s).rxBytes = s.rxBytes := rfl
@[simp] theorem raiseError_rdData (e : ErrorCode) : (raiseError e s).rdData = s.rdData := rfl

@[simp] theorem doStart_st : (doStart s).st = .active := rfl
@[simp] theorem doStart_errcode : (doStart s).errcode = .noError := rfl
@[simp] theorem doStart_buf : (doStart s).buf = s.buf := rfl
@[simp] theorem doStart_fill : (doStart s).fill = 0 := rfl
@[simp] theorem doStart_bmode : (doStart s).bmode = .sample := rfl
@[simp] theorem doStart_anyblk : (doStart s).anyblk = false := rfl
@[simp] theorem doStart_prevDC : (doStart s).prevDC = 0 := rfl
@[simp] theorem doStart_pkN : (doStart s).pkN = 0 := rfl
@[simp] theorem doStart_pkBits : (doStart s).pkBits = 0 := rfl
@[simp] theorem doStart_byteCount : (doStart s).byteCount = 0 := rfl
@[simp] theorem doStart_blockCount : (doStart s).blockCount = 0 := rfl
@[simp] theorem doStart_outq : (doStart s).outq = s.outq := rfl
@[simp] theorem doStart_cmdq : (doStart s).cmdq = s.cmdq := rfl
@[simp] theorem doStart_acts : (doStart s).acts = s.acts := rfl
@[simp] theorem doStart_ready : (doStart s).ready = s.ready := rfl
@[simp] theorem doStart_work : (doStart s).work = s.work := rfl
@[simp] theorem doStart_tick : (doStart s).tick = s.tick := rfl
@[simp] theorem doStart_rxBytes : (doStart s).rxBytes = s.rxBytes := rfl
@[simp] theorem doStart_rdData : (doStart s).rdData = s.rdData := rfl

@[simp] theorem closeBlock_st (dc : Int) : (closeBlock dc s).st = s.st := rfl
@[simp] theorem closeBlock_errcode (dc : Int) : (closeBlock dc s).errcode = s.errcode := rfl
@[simp] theorem closeBlock_buf (dc : Int) : (closeBlock dc s).buf = s.buf := rfl
@[simp] theorem closeBlock_fill (dc : Int) : (closeBlock dc s).fill = 0 := rfl
@[simp] theorem closeBlock_bmode (dc : Int) : (closeBlock dc s).bmode = s.bmode := rfl
@[simp] theorem closeBlock_anyblk (dc : Int) : (closeBlock dc s).anyblk = true := rfl
@[simp] theorem closeBlock_prevDC (dc : Int) : (closeBlock dc s).prevDC = BitVec.ofInt 16 dc := rfl
@[simp] theorem closeBlock_pkN (dc : Int) : (closeBlock dc s).pkN = s.pkN := rfl
@[simp] theorem closeBlock_pkBits (dc : Int) : (closeBlock dc s).pkBits = s.pkBits := rfl
@[simp] theorem closeBlock_byteCount (dc : Int) : (closeBlock dc s).byteCount = s.byteCount := rfl
@[simp] theorem closeBlock_blockCount (dc : Int) : (closeBlock dc s).blockCount = s.blockCount + 1 := rfl
@[simp] theorem closeBlock_outq (dc : Int) : (closeBlock dc s).outq = s.outq := rfl
@[simp] theorem closeBlock_cmdq (dc : Int) : (closeBlock dc s).cmdq = s.cmdq := rfl
@[simp] theorem closeBlock_acts (dc : Int) : (closeBlock dc s).acts = s.acts := rfl
@[simp] theorem closeBlock_ready (dc : Int) : (closeBlock dc s).ready = s.ready := rfl
@[simp] theorem closeBlock_work (dc : Int) : (closeBlock dc s).work = s.work := rfl
@[simp] theorem closeBlock_tick (dc : Int) : (closeBlock dc s).tick = s.tick := rfl
@[simp] theorem closeBlock_rxBytes (dc : Int) : (closeBlock dc s).rxBytes = s.rxBytes := rfl
@[simp] theorem closeBlock_rdData (dc : Int) : (closeBlock dc s).rdData = s.rdData := rfl

@[simp] theorem storeElement_st (k : BlockKind) (d : Data) : (storeElement k d s).st = s.st := rfl
@[simp] theorem storeElement_errcode (k : BlockKind) (d : Data) : (storeElement k d s).errcode = s.errcode := rfl
@[simp] theorem storeElement_buf (k : BlockKind) (d : Data) : (storeElement k d s).buf = s.buf.set s.fill.val d s.fill.isLt := rfl
@[simp] theorem storeElement_fill (k : BlockKind) (d : Data) : (storeElement k d s).fill = s.fill := rfl
@[simp] theorem storeElement_bmode (k : BlockKind) (d : Data) : (storeElement k d s).bmode = kindAfter k s := rfl
@[simp] theorem storeElement_anyblk (k : BlockKind) (d : Data) : (storeElement k d s).anyblk = s.anyblk := rfl
@[simp] theorem storeElement_prevDC (k : BlockKind) (d : Data) : (storeElement k d s).prevDC = s.prevDC := rfl
@[simp] theorem storeElement_pkN (k : BlockKind) (d : Data) : (storeElement k d s).pkN = s.pkN := rfl
@[simp] theorem storeElement_pkBits (k : BlockKind) (d : Data) : (storeElement k d s).pkBits = s.pkBits := rfl
@[simp] theorem storeElement_byteCount (k : BlockKind) (d : Data) : (storeElement k d s).byteCount = s.byteCount := rfl
@[simp] theorem storeElement_blockCount (k : BlockKind) (d : Data) : (storeElement k d s).blockCount = s.blockCount := rfl
@[simp] theorem storeElement_outq (k : BlockKind) (d : Data) : (storeElement k d s).outq = s.outq := rfl
@[simp] theorem storeElement_cmdq (k : BlockKind) (d : Data) : (storeElement k d s).cmdq = s.cmdq := rfl
@[simp] theorem storeElement_acts (k : BlockKind) (d : Data) : (storeElement k d s).acts = s.acts := rfl
@[simp] theorem storeElement_ready (k : BlockKind) (d : Data) : (storeElement k d s).ready = s.ready := rfl
@[simp] theorem storeElement_work (k : BlockKind) (d : Data) : (storeElement k d s).work = s.work := rfl
@[simp] theorem storeElement_tick (k : BlockKind) (d : Data) : (storeElement k d s).tick = s.tick := rfl
@[simp] theorem storeElement_rxBytes (k : BlockKind) (d : Data) : (storeElement k d s).rxBytes = s.rxBytes := rfl
@[simp] theorem storeElement_rdData (k : BlockKind) (d : Data) : (storeElement k d s).rdData = s.rdData := rfl

@[simp] theorem emitByte_st (b : Byte) : (emitByte b s).st = s.st := rfl
@[simp] theorem emitByte_errcode (b : Byte) : (emitByte b s).errcode = s.errcode := rfl
@[simp] theorem emitByte_buf (b : Byte) : (emitByte b s).buf = s.buf := rfl
@[simp] theorem emitByte_fill (b : Byte) : (emitByte b s).fill = s.fill := rfl
@[simp] theorem emitByte_bmode (b : Byte) : (emitByte b s).bmode = s.bmode := rfl
@[simp] theorem emitByte_anyblk (b : Byte) : (emitByte b s).anyblk = s.anyblk := rfl
@[simp] theorem emitByte_prevDC (b : Byte) : (emitByte b s).prevDC = s.prevDC := rfl
@[simp] theorem emitByte_pkN (b : Byte) : (emitByte b s).pkN = s.pkN := rfl
@[simp] theorem emitByte_pkBits (b : Byte) : (emitByte b s).pkBits = s.pkBits := rfl
@[simp] theorem emitByte_byteCount (b : Byte) : (emitByte b s).byteCount = s.byteCount + BitVec.ofNat 32 (stuffed b).length := rfl
@[simp] theorem emitByte_blockCount (b : Byte) : (emitByte b s).blockCount = s.blockCount := rfl
@[simp] theorem emitByte_outq (b : Byte) : (emitByte b s).outq = s.outq ++ stuffed b := rfl
@[simp] theorem emitByte_cmdq (b : Byte) : (emitByte b s).cmdq = s.cmdq := rfl
@[simp] theorem emitByte_acts (b : Byte) : (emitByte b s).acts = s.acts := rfl
@[simp] theorem emitByte_ready (b : Byte) : (emitByte b s).ready = s.ready := rfl
@[simp] theorem emitByte_work (b : Byte) : (emitByte b s).work = s.work := rfl
@[simp] theorem emitByte_tick (b : Byte) : (emitByte b s).tick = s.tick := rfl
@[simp] theorem emitByte_rxBytes (b : Byte) : (emitByte b s).rxBytes = s.rxBytes := rfl
@[simp] theorem emitByte_rdData (b : Byte) : (emitByte b s).rdData = s.rdData := rfl

@[simp] theorem resetCore_st : (resetCore s).st = .idle := rfl
@[simp] theorem resetCore_errcode : (resetCore s).errcode = .noError := rfl
@[simp] theorem resetCore_buf : (resetCore s).buf = s.buf := rfl
@[simp] theorem resetCore_fill : (resetCore s).fill = 0 := rfl
@[simp] theorem resetCore_bmode : (resetCore s).bmode = .sample := rfl
@[simp] theorem resetCore_anyblk : (resetCore s).anyblk = false := rfl
@[simp] theorem resetCore_prevDC : (resetCore s).prevDC = 0 := rfl
@[simp] theorem resetCore_pkN : (resetCore s).pkN = 0 := rfl
@[simp] theorem resetCore_pkBits : (resetCore s).pkBits = 0 := rfl
@[simp] theorem resetCore_byteCount : (resetCore s).byteCount = 0 := rfl
@[simp] theorem resetCore_blockCount : (resetCore s).blockCount = 0 := rfl
@[simp] theorem resetCore_outq : (resetCore s).outq = [] := rfl
@[simp] theorem resetCore_cmdq : (resetCore s).cmdq = s.cmdq := rfl
@[simp] theorem resetCore_acts : (resetCore s).acts = s.acts := rfl
@[simp] theorem resetCore_ready : (resetCore s).ready = s.ready := rfl
@[simp] theorem resetCore_work : (resetCore s).work = 0 := rfl
@[simp] theorem resetCore_tick : (resetCore s).tick = s.tick := rfl
@[simp] theorem resetCore_rxBytes : (resetCore s).rxBytes = s.rxBytes := rfl
@[simp] theorem resetCore_rdData : (resetCore s).rdData = s.rdData := rfl

@[simp] theorem passTime_st : (passTime s).st = s.st := rfl
@[simp] theorem passTime_errcode : (passTime s).errcode = s.errcode := rfl
@[simp] theorem passTime_buf : (passTime s).buf = s.buf := rfl
@[simp] theorem passTime_fill : (passTime s).fill = s.fill := rfl
@[simp] theorem passTime_bmode : (passTime s).bmode = s.bmode := rfl
@[simp] theorem passTime_anyblk : (passTime s).anyblk = s.anyblk := rfl
@[simp] theorem passTime_prevDC : (passTime s).prevDC = s.prevDC := rfl
@[simp] theorem passTime_pkN : (passTime s).pkN = s.pkN := rfl
@[simp] theorem passTime_pkBits : (passTime s).pkBits = s.pkBits := rfl
@[simp] theorem passTime_byteCount : (passTime s).byteCount = s.byteCount := rfl
@[simp] theorem passTime_blockCount : (passTime s).blockCount = s.blockCount := rfl
@[simp] theorem passTime_outq : (passTime s).outq = s.outq := rfl
@[simp] theorem passTime_cmdq : (passTime s).cmdq = s.cmdq := rfl
@[simp] theorem passTime_acts : (passTime s).acts = s.acts := rfl
@[simp] theorem passTime_ready : (passTime s).ready = Config.readyDraw s.tick := rfl
@[simp] theorem passTime_work : (passTime s).work = s.work - 1 := rfl
@[simp] theorem passTime_tick : (passTime s).tick = s.tick + 1 := rfl
@[simp] theorem passTime_rxBytes : (passTime s).rxBytes = s.rxBytes := rfl
@[simp] theorem passTime_rdData : (passTime s).rdData = s.rdData := rfl

@[simp] theorem afterCommand_st : (afterCommand s).st = s.st := rfl
@[simp] theorem afterCommand_errcode : (afterCommand s).errcode = s.errcode := rfl
@[simp] theorem afterCommand_buf : (afterCommand s).buf = s.buf := rfl
@[simp] theorem afterCommand_fill : (afterCommand s).fill = s.fill := rfl
@[simp] theorem afterCommand_bmode : (afterCommand s).bmode = s.bmode := rfl
@[simp] theorem afterCommand_anyblk : (afterCommand s).anyblk = s.anyblk := rfl
@[simp] theorem afterCommand_prevDC : (afterCommand s).prevDC = s.prevDC := rfl
@[simp] theorem afterCommand_pkN : (afterCommand s).pkN = s.pkN := rfl
@[simp] theorem afterCommand_pkBits : (afterCommand s).pkBits = s.pkBits := rfl
@[simp] theorem afterCommand_byteCount : (afterCommand s).byteCount = s.byteCount := rfl
@[simp] theorem afterCommand_blockCount : (afterCommand s).blockCount = s.blockCount := rfl
@[simp] theorem afterCommand_outq : (afterCommand s).outq = s.outq := rfl
@[simp] theorem afterCommand_cmdq : (afterCommand s).cmdq = s.cmdq := rfl
@[simp] theorem afterCommand_acts : (afterCommand s).acts = s.acts := rfl
@[simp] theorem afterCommand_ready : (afterCommand s).ready = Config.readyDraw s.tick := rfl
@[simp] theorem afterCommand_work : (afterCommand s).work = Config.workDraw s.tick := rfl
@[simp] theorem afterCommand_tick : (afterCommand s).tick = s.tick + 1 := rfl
@[simp] theorem afterCommand_rxBytes : (afterCommand s).rxBytes = s.rxBytes := rfl
@[simp] theorem afterCommand_rdData : (afterCommand s).rdData = s.rdData := rfl

@[simp] theorem keepAct_st (a : HostAct) : (keepAct a s).st = s.st := rfl
@[simp] theorem keepAct_errcode (a : HostAct) : (keepAct a s).errcode = s.errcode := rfl
@[simp] theorem keepAct_buf (a : HostAct) : (keepAct a s).buf = s.buf := rfl
@[simp] theorem keepAct_fill (a : HostAct) : (keepAct a s).fill = s.fill := rfl
@[simp] theorem keepAct_bmode (a : HostAct) : (keepAct a s).bmode = s.bmode := rfl
@[simp] theorem keepAct_anyblk (a : HostAct) : (keepAct a s).anyblk = s.anyblk := rfl
@[simp] theorem keepAct_prevDC (a : HostAct) : (keepAct a s).prevDC = s.prevDC := rfl
@[simp] theorem keepAct_pkN (a : HostAct) : (keepAct a s).pkN = s.pkN := rfl
@[simp] theorem keepAct_pkBits (a : HostAct) : (keepAct a s).pkBits = s.pkBits := rfl
@[simp] theorem keepAct_byteCount (a : HostAct) : (keepAct a s).byteCount = s.byteCount := rfl
@[simp] theorem keepAct_blockCount (a : HostAct) : (keepAct a s).blockCount = s.blockCount := rfl
@[simp] theorem keepAct_outq (a : HostAct) : (keepAct a s).outq = s.outq := rfl
@[simp] theorem keepAct_cmdq (a : HostAct) : (keepAct a s).cmdq = s.cmdq := rfl
@[simp] theorem keepAct_acts (a : HostAct) : (keepAct a s).acts = a :: s.acts := rfl
@[simp] theorem keepAct_ready (a : HostAct) : (keepAct a s).ready = s.ready := rfl
@[simp] theorem keepAct_work (a : HostAct) : (keepAct a s).work = s.work := rfl
@[simp] theorem keepAct_tick (a : HostAct) : (keepAct a s).tick = s.tick := rfl
@[simp] theorem keepAct_rxBytes (a : HostAct) : (keepAct a s).rxBytes = s.rxBytes := rfl
@[simp] theorem keepAct_rdData (a : HostAct) : (keepAct a s).rdData = s.rdData := rfl

@[simp] theorem offerNext_st (w : Word) : (offerNext w s).st = s.st := rfl
@[simp] theorem offerNext_errcode (w : Word) : (offerNext w s).errcode = s.errcode := rfl
@[simp] theorem offerNext_buf (w : Word) : (offerNext w s).buf = s.buf := rfl
@[simp] theorem offerNext_fill (w : Word) : (offerNext w s).fill = s.fill := rfl
@[simp] theorem offerNext_bmode (w : Word) : (offerNext w s).bmode = s.bmode := rfl
@[simp] theorem offerNext_anyblk (w : Word) : (offerNext w s).anyblk = s.anyblk := rfl
@[simp] theorem offerNext_prevDC (w : Word) : (offerNext w s).prevDC = s.prevDC := rfl
@[simp] theorem offerNext_pkN (w : Word) : (offerNext w s).pkN = s.pkN := rfl
@[simp] theorem offerNext_pkBits (w : Word) : (offerNext w s).pkBits = s.pkBits := rfl
@[simp] theorem offerNext_byteCount (w : Word) : (offerNext w s).byteCount = s.byteCount := rfl
@[simp] theorem offerNext_blockCount (w : Word) : (offerNext w s).blockCount = s.blockCount := rfl
@[simp] theorem offerNext_outq (w : Word) : (offerNext w s).outq = s.outq := rfl
@[simp] theorem offerNext_cmdq (w : Word) : (offerNext w s).cmdq = w :: s.cmdq := rfl
@[simp] theorem offerNext_acts (w : Word) : (offerNext w s).acts = .tryCommand :: s.acts := rfl
@[simp] theorem offerNext_ready (w : Word) : (offerNext w s).ready = true := rfl
@[simp] theorem offerNext_work (w : Word) : (offerNext w s).work = s.work := rfl
@[simp] theorem offerNext_tick (w : Word) : (offerNext w s).tick = s.tick := rfl
@[simp] theorem offerNext_rxBytes (w : Word) : (offerNext w s).rxBytes = s.rxBytes := rfl
@[simp] theorem offerNext_rdData (w : Word) : (offerNext w s).rdData = s.rdData := rfl

end Sys2Proof.Machine
end

