-- ==== Sys2Proof/Laws/Packer.lean ====
section
/-!
SUPPORT. What the packer's operations can do: they change the packer's registers, `byte_count` and
`outq` and nothing else, and `outq` only grows at its tail.
-/

namespace Sys2Proof.Machine

/-- The fields the packer never changes, as one record equation. -/
def samePackerFrame (s t : State) : Prop :=
  t = { s with pkN := t.pkN, pkBits := t.pkBits, byteCount := t.byteCount, outq := t.outq }

theorem samePackerFrame_refl (s : State) : samePackerFrame s s := rfl

theorem samePackerFrame_trans {s t u : State} (h1 : samePackerFrame s t) (h2 : samePackerFrame t u) :
    samePackerFrame s u := by
  unfold samePackerFrame at *
  rw [h2, h1]

@[simp] theorem packBits_nil (s : State) : packBits s [] = s := rfl

@[simp] theorem packBits_cons (s : State) (b : Bool) (bs : List Bool) :
    packBits s (b :: bs) = packBits (packBit s b) bs := rfl

theorem packBit_frame (s : State) (b : Bool) : samePackerFrame s (packBit s b) := by
  unfold packBit; split <;> rfl

theorem packBits_frame (s : State) (bs : List Bool) : samePackerFrame s (packBits s bs) := by
  induction bs generalizing s with
  | nil => exact samePackerFrame_refl s
  | cons b bs ih => exact samePackerFrame_trans (packBit_frame s b) (ih _)

theorem packFlush_frame (s : State) : samePackerFrame s (packFlush s) := by
  unfold packFlush; split <;> rfl

section frame
variable {s t : State} (h : samePackerFrame s t)
include h
theorem samePackerFrame_st : t.st = s.st := by rw [h]
theorem samePackerFrame_errcode : t.errcode = s.errcode := by rw [h]
theorem samePackerFrame_buf : t.buf = s.buf := by rw [h]
theorem samePackerFrame_fill : t.fill = s.fill := by rw [h]
theorem samePackerFrame_bmode : t.bmode = s.bmode := by rw [h]
theorem samePackerFrame_anyblk : t.anyblk = s.anyblk := by rw [h]
theorem samePackerFrame_prevDC : t.prevDC = s.prevDC := by rw [h]
theorem samePackerFrame_blockCount : t.blockCount = s.blockCount := by rw [h]
theorem samePackerFrame_cmdq : t.cmdq = s.cmdq := by rw [h]
theorem samePackerFrame_acts : t.acts = s.acts := by rw [h]
theorem samePackerFrame_ready : t.ready = s.ready := by rw [h]
theorem samePackerFrame_work : t.work = s.work := by rw [h]
theorem samePackerFrame_tick : t.tick = s.tick := by rw [h]
theorem samePackerFrame_rxBytes : t.rxBytes = s.rxBytes := by rw [h]
theorem samePackerFrame_rdData : t.rdData = s.rdData := by rw [h]
end frame

/-- The bytes one written bit completes: none, or the shifted-in byte with its stuffing. -/
theorem packBit_outq (s : State) (b : Bool) :
    (packBit s b).outq = s.outq ++ (if s.pkN = 7 then stuffed (shiftIn s.pkBits b) else []) := by
  unfold packBit; split <;> simp [*]

end Sys2Proof.Machine
end

