-- ==== Sys2Proof/Laws/Ops.lean ====
section
/-!
SUPPORT. What each shared operation can do, said once: the cases of the entropy check, of a block's
encoding, of an element's write and of a flush, with the condition of each (44_entropy.md R199;
40_commands.md R113, R116, R118). Later proofs cite these and do not unfold the operations.
-/

namespace Sys2Proof.Machine

theorem mem_acList {z : Fin 64 → Int} {v : Int} : v ∈ acList z ↔ ∃ k : Fin 63, z k.succ = v := by
  simp [acList]

@[simp] theorem acList_length (z : Fin 64 → Int) : (acList z).length = 63 := by simp [acList]

theorem unlessError_of_error {s t : State} (h : s.st = .error) : unlessError s t = s := by
  simp [unlessError, h]

theorem unlessError_of_ne {s t : State} (h : s.st ≠ .error) : unlessError s t = t := by
  simp [unlessError, h]

theorem kindAfter_of_pos (k : BlockKind) {s : State} (h : s.fill ≠ 0) : kindAfter k s = s.bmode := by
  simp [kindAfter, h]

theorem kindAfter_of_zero (k : BlockKind) {s : State} (h : s.fill = 0) : kindAfter k s = k := by
  simp [kindAfter, h]

/-- A block's encoding is the check's error, or it writes the block's bits and closes it. -/
theorem encodeBlock_cases (cfg : Config) (s : State) :
    (∃ e, entropyCheck (zigzagBlock cfg s) s.prevDC.toInt = some e ∧
      encodeBlock cfg s = .error e) ∨
    (entropyCheck (zigzagBlock cfg s) s.prevDC.toInt = none ∧
      encodeBlock cfg s = .ok (closeBlock (zigzagBlock cfg s 0)
        (packBits s (blockBits cfg (zigzagBlock cfg s) s.prevDC.toInt)))) := by
  unfold encodeBlock
  cases h : entropyCheck (zigzagBlock cfg s) s.prevDC.toInt with
  | some e => exact .inl ⟨e, rfl, by simp [h]⟩
  | none => exact .inr ⟨rfl, by simp [h]⟩

/-- The five things a write of an element can do, each with its condition; `b` is the state whose buffer
holds the block with its 64th element. -/
theorem doWrite_cases (cfg : Config) (k : BlockKind) (d : Data) (s : State) :
    (s.st ≠ .active ∧ doWrite cfg k d s = raiseError .seq s) ∨
    (s.st = .active ∧ s.fill ≠ 0 ∧ k ≠ s.bmode ∧ doWrite cfg k d s = raiseError .mix s) ∨
    (s.st = .active ∧ k = s.bmode ∧ s.fill = 63 ∧ ∃ b e, b = storeElement k d s ∧
      entropyCheck (zigzagBlock cfg b) b.prevDC.toInt = some e ∧ doWrite cfg k d s = raiseError e s) ∨
    (s.st = .active ∧ k = s.bmode ∧ s.fill = 63 ∧ ∃ b, b = storeElement k d s ∧
      entropyCheck (zigzagBlock cfg b) b.prevDC.toInt = none ∧
      doWrite cfg k d s = closeBlock (zigzagBlock cfg b 0)
        (packBits b (blockBits cfg (zigzagBlock cfg b) b.prevDC.toInt))) ∨
    (s.st = .active ∧ (s.fill = 0 ∨ k = s.bmode) ∧ s.fill ≠ 63 ∧
      doWrite cfg k d s = { storeElement k d s with fill := s.fill + 1 }) := by
  unfold doWrite
  by_cases h1 : s.st = .active
  · by_cases h2 : s.fill ≠ 0 ∧ k ≠ s.bmode
    · exact .inr (.inl ⟨h1, h2.1, h2.2, by simp [h1, h2]⟩)
    · have h2' : s.fill = 0 ∨ k = s.bmode := by
        by_contra hc; push Not at hc; exact h2 hc
      by_cases h3 : s.fill = 63
      · have hk : k = s.bmode := h2'.resolve_left (by rw [h3]; decide)
        rw [if_neg (by simp [h1]), if_neg h2, if_pos h3]
        obtain ⟨e, hc, he⟩ | ⟨hc, he⟩ := encodeBlock_cases cfg (storeElement k d s)
        · exact .inr (.inr (.inl ⟨h1, hk, h3, _, e, rfl, hc, by rw [he]⟩))
        · exact .inr (.inr (.inr (.inl ⟨h1, hk, h3, _, rfl, hc, by rw [he]⟩)))
      · exact .inr (.inr (.inr (.inr ⟨h1, h2', h3, by rw [if_neg (by simp [h1]), if_neg h2, if_neg h3]⟩)))
  · exact .inl ⟨h1, by simp [h1]⟩

/-- The four things a flush can do, each with its condition. -/
theorem doFlush_cases (s : State) :
    (s.st ≠ .active ∧ doFlush s = raiseError .seq s) ∨
    (s.st = .active ∧ s.fill ≠ 0 ∧ doFlush s = raiseError .partialBlock s) ∨
    (s.st = .active ∧ s.fill = 0 ∧ s.anyblk = false ∧ doFlush s = raiseError .empty s) ∨
    (s.st = .active ∧ s.fill = 0 ∧ s.anyblk = true ∧
      doFlush s = { packFlush s with st := .done }) := by
  unfold doFlush
  by_cases h1 : s.st = .active
  · by_cases h2 : s.fill = 0
    · cases h3 : s.anyblk with
      | false => exact .inr (.inr (.inl ⟨h1, h2, rfl, by simp [h1, h2]⟩))
      | true => exact .inr (.inr (.inr ⟨h1, h2, rfl, by simp [h1, h2]⟩))
    · exact .inr (.inl ⟨h1, h2, by simp [h1, h2]⟩)
  · exact .inl ⟨h1, by simp [h1]⟩

end Sys2Proof.Machine
end

