-- ==== Sys2Proof/Laws/PerInstr.lean ====
section
/-!
SUPPORT. Facts of each command as syntax, one lemma for each constructor of `Instr`.
-/

namespace Sys2Proof.Laws.EncodedWordLegal

/-- The word a command encodes as is legal (30_encoding.md R91, R92). -/
def Statement (i : Instr) : Prop := legalWord (encode i) = true

theorem opcode_then_zeros_legal (d : Data) : legalWord (commandWord 0x2 d) = true ∧
    legalWord (commandWord 0x3 d) = true := by
  have h : ∀ opc : BitVec 4, (commandWord opc d).extractLsb' 28 4 = opc ∧
      (commandWord opc d).extractLsb' 16 12 = 0 := by
    intro opc
    constructor <;> (apply BitVec.eq_of_getLsbD_eq; intro i hi; simp [commandWord]; grind)
  simp [legalWord, (h _).1, (h _).2]

theorem nop : Statement .nop := by unfold Statement; decide

theorem start : Statement .start := by unfold Statement; decide

theorem sample (data : Data) : Statement (.sample data) := (opcode_then_zeros_legal data).1

theorem coef (data : Data) : Statement (.coef data) := (opcode_then_zeros_legal data).2

theorem flush : Statement .flush := by unfold Statement; decide

end Sys2Proof.Laws.EncodedWordLegal
end

