-- ==== Sys2Proof/Laws/Step.lean ====
section
/-!
SUPPORT. What a command and a step answer, said once: `exec` answers the next state of the command's
own operation, and a step is one of the port turns. Later proofs take a step apart with these.
-/

namespace Sys2Proof.Machine

/-- The next state of a command, the dispatch of 40_commands.md R110 without the outcome. -/
def nextState (i : Instr) (s : State) : State :=
  match i with
  | .nop => s
  | .start => doStart s
  | .sample d => unlessError s (doWrite Config.core .sample d s)
  | .coef d => unlessError s (doWrite Config.core .coef d s)
  | .flush => unlessError s (doFlush s)

theorem exec_eq_next (i : Instr) (s : State) : exec i s = .next (nextState i s) := by
  cases i <;> rfl

theorem exec_next_iff {i : Instr} {s t : State} : exec i s = .next t ↔ nextState i s = t := by
  rw [exec_eq_next]; simp

/-- The next state of an accepted word: a decoded command's, or ILLEGAL's (R110). -/
def acceptState (w : Word) (s : State) : State :=
  match decode w with
  | .ok i => nextState i s
  | .error _ => takeIllegal s

theorem acceptWord_eq_next (w : Word) (s : State) :
    acceptWord w s = .next (afterCommand (acceptState w s)) := by
  unfold acceptWord acceptState
  cases decode w <;> simp [exec_eq_next]

/-- A turn of the command channel accepts the next word or changes nothing of the core. -/
theorem commandTurn_cases (s : State) :
    (∃ w rest, s.cmdq = w :: rest ∧ (s.outq = [] ∨ s.ready = true) ∧
      commandTurn s = .next (afterCommand (acceptState w { s with cmdq := rest }))) ∨
    ((s.cmdq = [] ∨ (s.outq ≠ [] ∧ s.ready = false)) ∧ commandTurn s = .next (passTime s)) := by
  unfold commandTurn
  cases hq : s.cmdq with
  | nil => exact .inr ⟨.inl rfl, rfl⟩
  | cons w rest =>
    by_cases hr : cmdReadyOut false s = true
    · refine .inl ⟨w, rest, rfl, ?_, by simp [hr, acceptWord_eq_next]⟩
      simpa [cmdReadyOut] using hr
    · refine .inr ⟨.inr ?_, by simp [hr]⟩
      simpa [cmdReadyOut] using hr

@[simp] theorem deliverByte_nil {s : State} (h : s.outq = []) : deliverByte s = s := by
  unfold deliverByte; rw [h]

theorem deliverByte_cons {s : State} {b : Byte} {rest : List Byte} (h : s.outq = b :: rest) :
    deliverByte s = { s with outq := rest, rxBytes := s.rxBytes ++ [b] } := by
  unfold deliverByte; rw [h]

theorem step_of_no_acts {s : State} (h : s.acts = []) : step s = commandTurn s := by
  unfold step portTurn; rw [h]

theorem step_of_act {s : State} {a : HostAct} {rest : List HostAct} (h : s.acts = a :: rest) :
    step s = hostTurn a { s with acts := rest } := by
  unfold step portTurn; rw [h]

end Sys2Proof.Machine
end

