-- ==== Sys2Proof/Laws/Transform.lean ====
section
/-!
SUPPORT. The separable form is the direct form (41_transform.md R145), and the one SAMPLE block whose
quantized values every conforming transform fixes with no real arithmetic: the all-zero block (R148);
and that a coefficient of the core's transform fits its output register (R144).
-/

namespace Sys2Proof.Machine

/-- R145: the row/column form equals the direct form in real arithmetic. -/
theorem dctSeparable_eq_direct (f : Fin 64 → ℚ) (u v : Fin 8) : dctSeparable f u v = dctDirect f u v :=
  (dctDirect_eq_sum f u v).symm

@[simp] theorem sampleValue_zero (n : Nat) : sampleValue n 0#16 = 0 := by simp [sampleValue]

theorem dctDirect_zero (u v : Fin 8) : dctDirect (fun _ => 0) u v = 0 := by simp [dctDirect]

theorem core_qtAt_pos (i : Fin 64) : 1 ≤ Config.core.qtAt i := by
  have h : ∀ i : Fin 64, 1 ≤ defaultQt.getD i.val 0 := by decide
  exact h i

/-- The core's transform, whatever conforming one it is, takes an all-zero block to within 65 units of
2^−16 of 0. -/
theorem core_dct_zero_small (i : Fin 64) : (Config.core.dct (fun _ => 0) i).natAbs ≤ 65 := by
  have h : |(Config.core.dct (fun _ => sampleValue 8 0#16) i : ℝ) / 2 ^ 16
      - dctDirect (fun _ => sampleValue 8 0#16) (colOf i) (rowOf i)| ≤ ((1 / 1000 : ℚ) : ℝ) :=
    Config.core_dctWithinTol (fun _ => 0#16) i
  simp only [sampleValue_zero, dctDirect_zero, sub_zero] at h
  have h' : |(Config.core.dct (fun _ => 0) i : ℝ) / 2 ^ 16| ≤ 1 / 1000 := by
    refine h.trans (by norm_num)
  rw [abs_le] at h'
  have h1 : (Config.core.dct (fun _ => 0) i : ℝ) < 66 := by linarith [h'.2]
  have h2 : (-66 : ℝ) < (Config.core.dct (fun _ => 0) i : ℝ) := by linarith [h'.1]
  have h1' : Config.core.dct (fun _ => 0) i < 66 := by exact_mod_cast h1
  have h2' : -66 < Config.core.dct (fun _ => 0) i := by exact_mod_cast h2
  omega

/-- A sum of eight products of a basis entry and a number within B is within 4B. -/
theorem basis_sum_le {B : ℝ} (k : Fin 8) (g : Fin 8 → ℝ) (hg : ∀ n, |g n| ≤ B) :
    |∑ n : Fin 8, dctBasis k n * g n| ≤ 4 * B := by
  calc |∑ n : Fin 8, dctBasis k n * g n| ≤ ∑ n : Fin 8, |dctBasis k n * g n| :=
        Finset.abs_sum_le_sum_abs _ _
    _ ≤ ∑ _n : Fin 8, B / 2 := Finset.sum_le_sum fun n _ => by
        rw [abs_mul]
        nlinarith [dctBasis_bound k n, hg n, abs_nonneg (dctBasis k n), abs_nonneg (g n)]
    _ = 4 * B := by simp; ring

/-- A crude bound on a coefficient, enough for the register's width. -/
theorem dctDirect_le_2048 (f : Fin 64 → ℚ) (u v : Fin 8) (hf : ∀ i, |(f i : ℝ)| ≤ 128) :
    |dctDirect f u v| ≤ 2048 := by
  rw [dctDirect_eq_sum]
  have := basis_sum_le v _ (fun y => basis_sum_le u (fun x => (f (natIndex y x) : ℝ)) fun x => hf _)
  linarith

theorem stageRegister_toInt {c : Int} (h : c.natAbs < 2 ^ 31) : (stageRegister c).toInt = c := by
  unfold stageRegister
  rw [BitVec.toInt_ofInt, Int.bmod_eq_of_le] <;> omega

/-- Every coefficient of the core's transform fits its output register, so the quantizer reads exactly
what the transform computed (R142, R144). -/
theorem core_stageOutput (buf : Vector Data 64) (i : Fin 64) :
    (stageOutput Config.core (blockSamples Config.core buf) i).toInt =
      Config.core.dct (blockSamples Config.core buf) i := by
  apply stageRegister_toInt
  set f := blockSamples Config.core buf with hf
  have h : |(Config.core.dct f i : ℝ) / 2 ^ 16 - dctDirect f (colOf i) (rowOf i)| ≤ ((1 / 1000 : ℚ) : ℝ) :=
    Config.core_dctWithinTol (fun j => buf[j]) i
  have hb := dctDirect_le_2048 f (colOf i) (rowOf i) fun j => sampleValue_bound buf[j]
  have h' : |(Config.core.dct f i : ℝ) / 2 ^ 16 - dctDirect f (colOf i) (rowOf i)| ≤ 1 / 1000 :=
    h.trans (by norm_num)
  rw [abs_le] at h' hb
  have h1 : (Config.core.dct f i : ℝ) < 2 ^ 28 := by norm_num; linarith [h'.2, hb.2]
  have h2 : -(2 : ℝ) ^ 28 < (Config.core.dct f i : ℝ) := by norm_num; linarith [h'.1, hb.1]
  have h1' : Config.core.dct f i < 2 ^ 28 := by exact_mod_cast h1
  have h2' : -(2 : Int) ^ 28 < Config.core.dct f i := by exact_mod_cast h2
  omega

/-- A SAMPLE block's quantized value is the quantizer of the transform's own integer: its register is not
seen. -/
theorem quantizedBlock_core_sample (buf : Vector Data 64) (i : Fin 64) :
    quantizedBlock Config.core .sample buf i =
      quant 16 (Config.core.dct (blockSamples Config.core buf) i) (Config.core.qtAt i) := by
  rw [← core_stageOutput]; rfl

/-- An all-zero SAMPLE block quantizes to zeros. -/
theorem core_zero_block (i : Fin 64) :
    quantizedBlock Config.core .sample (Vector.replicate 64 0) i = 0 := by
  have hf : blockSamples Config.core (Vector.replicate 64 0) = fun _ => 0 := by
    funext j; simp [blockSamples]
  have hs := core_dct_zero_small i
  have hq := core_qtAt_pos i
  rw [quantizedBlock_core_sample, hf]
  generalize Config.core.dct (fun _ => 0) i = c at hs
  have hm : (2 * c.natAbs + Config.core.qtAt i * 2 ^ 16) / (2 * (Config.core.qtAt i * 2 ^ 16)) = 0 := by
    apply Nat.div_eq_of_lt
    have : 2 ^ 16 ≤ Config.core.qtAt i * 2 ^ 16 := Nat.le_mul_of_pos_left _ hq
    omega
  unfold quant
  simp only [hm]
  simp

end Sys2Proof.Machine
end

