-- ==== Sys2Proof/Tests/Slice0.lean ====
section
/-!
SUPPORT. Tests: words written out from the opcode map, ill-formed terms that the checks refuse, vectors
of spec/95_test_vectors.md (each cites its group) and single steps on small states; then a named witness
for the hypotheses of each statement, at the boundary of each clause.
-/

namespace Sys2Proof.Tests

open Sys2Proof.Machine

/-- The next state of an outcome. -/
def nextOf : Host.Outcome State Fault Refusal → Option State
  | .next t => some t
  | .fault _ => none
  | .refused _ => none

/-- An open image right after START. -/
def opened : State := { State.reset with st := .active }

/-- A partly written block: `n` zero elements of a kind. -/
def partlyWritten (kind : BlockKind) (n : Fin 64) : State := { opened with fill := n, bmode := kind }

/-- A COEF block of zeros but for the given natural indices, its last element still to come. -/
def coefBlock (entries : List (Fin 64 × Data)) : State :=
  { partlyWritten .coef 63 with
    buf := entries.foldl (fun b e => b.set e.1.val e.2 e.1.isLt) (Vector.replicate 64 0) }

/-- An image with blocks, and with bits pending in the packer. -/
def withPending (n : Fin 8) (bits : BitVec 7) : State :=
  { opened with anyblk := true, blockCount := 1, pkN := n, pkBits := bits }

/-- A core in ERROR. -/
def failed : State := { State.reset with st := .error, errcode := .illegal }

/-- STATUS of a next state, read with BUSY = 0. -/
def statusAfter (o : Host.Outcome State Fault Refusal) : Option Word := (nextOf o).map (statusWord false)

/-! ## Decoding: words written out bit by bit (V-DEC) -/

theorem test_decode_nop : decode 0b0000_000000000000_0000000000000000#32 = .ok .nop := by decide

theorem test_decode_start : decode 0b0001_000000000000_0000000000000000#32 = .ok .start := by decide

theorem test_decode_sample :
    decode 0b0010_000000000000_1111111110000001#32 = .ok (.sample 0xFF81#16) := by decide

theorem test_decode_coef :
    decode 0b0011_000000000000_1000000000000110#32 = .ok (.coef 0x8006#16) := by decide

theorem test_decode_flush : decode 0b0100_000000000000_0000000000000000#32 = .ok .flush := by decide

theorem test_encode_words :
    [encode .nop, encode .start, encode (.sample 0x0200), encode (.coef 0x7FFF), encode .flush] =
      [0x00000000#32, 0x10000000#32, 0x20000200#32, 0x30007FFF#32, 0x40000000#32] := by decide

theorem test_decode_refuses :
    [decode 0x00000001#32, decode 0x00010000#32, decode 0x10000100#32, decode 0x20010000#32,
      decode 0x38000000#32, decode 0x40000001#32, decode 0x50000000#32, decode 0xFFFFFFFF#32] =
      [.error .nonzeroData, .error .reservedBits, .error .nonzeroData, .error .reservedBits,
        .error .reservedBits, .error .nonzeroData, .error .reservedOpcode, .error .reservedOpcode] := by
  decide

/-- Words illegal in two ways: the opcode's name comes before the reserved bits', and theirs before the
data's (log 24). -/
theorem test_decode_doubly_illegal :
    decode 0x50010000#32 = .error .reservedOpcode ∧ decode 0x00010001#32 = .error .reservedBits := by decide

theorem test_table_words :
    decodeTableWord 32 0x20000100 = some (.sample 0x0100) ∧ decodeTableWord 32 0x50000000 = none := by
  decide

/-- The host's check in small: the word placed on the command channel runs as the first command after
reset. -/
theorem test_first_step_runs_start :
    (nextOf (step (State.reset.withFetchWord 32 0x10000000))).map (fun t => (t.st, t.cmdq)) =
      some (.active, []) := by decide

theorem test_first_step_runs_sample :
    (nextOf (step (State.reset.withFetchWord 32 0x20000100))).map (fun t => t.errcode) = some .seq := by
  decide

/-! ## Well-formedness: each check refuses an ill-formed term -/

theorem test_legalWord_accepts :
    [0x00000000#32, 0x10000000#32, 0x20000000#32, 0x2000FFFF#32, 0x30008000#32, 0x40000000#32].all
      legalWord = true := by decide

theorem test_legalWord_refuses :
    [0x00000001#32, 0x00010000#32, 0x10000100#32, 0x20010000#32, 0x38000000#32, 0x40000001#32,
      0x50000000#32, 0xF0000000#32, 0xFFFFFFFF#32].any legalWord = false := by decide

theorem test_instr_wellFormed_at_the_edges :
    [Instr.nop, .start, .sample 0x8000, .sample 0x7FFF, .coef 0x8000, .coef 0xFFFF, .flush].all
      Instr.WellFormed = true := by decide

theorem test_qtOk_refuses_zero_divisor :
    Config.qtOk { Config.core with qt := 0 :: defaultQt.tail } = false := by decide +kernel

theorem test_qtOk_refuses_wide_divisor :
    Config.qtOk { Config.core with qt := 256 :: defaultQt.tail } = false := by decide +kernel

theorem test_qtOk_refuses_short_table :
    Config.qtOk { Config.core with qt := defaultQt.tail } = false := by decide +kernel

theorem test_histogramOk_refuses : histogramOk [1] [0] = false ∧
    histogramOk (0 :: defaultBitsDC.tail) (12 :: defaultHuffvalDC) = false := by decide

theorem test_symbolsOk_refuses : symbolsOk 16 [0, 1, 0] = false ∧ symbolsOk 16 [0, 16] = false := by decide

/-- Two 1-bit codes fill the code space, so the last one is all ones; three do not fit at all. -/
theorem test_codesOk_refuses : codesOk [2] [0, 1] = false ∧ codesOk [3] [0, 1, 2] = false := by decide

theorem test_symbolsCoded_refuses : symbolsCoded [0, 1, 2] [0, 2] [0, 1] = false := by decide

theorem test_huffmanOk_refuses :
    Config.huffmanOk { Config.core with huffvalDC := [0, 1, 2, 3, 4, 5, 6, 7, 8, 9, 10, 10] } = false := by
  decide +kernel

theorem test_widthsOk_refuses :
    Config.widthsOk { Config.core with coefFracBits := 9 } = false ∧
      Config.widthsOk { Config.core with coefFracBits := 21 } = false ∧
      Config.widthsOk { Config.core with accWidth := 7 } = false := by decide

theorem test_config_refused_whole :
    Config.WellFormed { Config.core with accWidth := 7 } = false := by decide +kernel

/-! ## The commands, one step each (V-REG, V-ERR, V-BLK) -/

theorem test_nop_keeps_state : nextOf (exec .nop (partlyWritten .coef 5)) = some (partlyWritten .coef 5) := by
  decide +kernel

theorem test_start_status : statusAfter (exec .start { failed with anyblk := true }) = some 0x00000001#32 := by
  decide

/-- START keeps undelivered bytes (R112). -/
theorem test_start_keeps_output :
    (nextOf (exec .start { withPending 3 0b101 with outq := [0x5A], byteCount := 1 })).map
      (fun t => (t.outq, t.byteCount, t.pkN)) = some ([0x5A], 0, 0) := by decide

/-- The fifth element after four: FILL = 5 (V-REG). -/
theorem test_sample_status :
    statusAfter (exec (.sample 0x0100) (partlyWritten .sample 4)) = some 0x00000501#32 := by decide

theorem test_sample_stores_at_fill :
    (nextOf (exec (.sample 0xFE00) (partlyWritten .sample 4))).map (fun t => (t.buf[4], t.buf[5])) =
      some (0xFE00, 0x0000) := by decide

theorem test_coef_status :
    statusAfter (exec (.coef 0) (partlyWritten .coef 4)) = some 0x00004501#32 := by decide

/-- V-BLK4: DC 3, natural index 1 = −2. -/
theorem test_coef_block :
    (nextOf (exec (.coef 0) (coefBlock [(0, 3), (1, 0xFFFE)]))).map
      (fun t => (statusWord false t, t.outq, packerWord t, t.prevDC, t.byteCount, t.blockCount)) =
      some (0x0000C001#32, [0x7A], 0x00001A05#32, 3, 1, 1) := by decide +kernel

/-- V-PK8 with V-REG's STATUS. -/
theorem test_flush_pads :
    (nextOf (exec .flush { withPending 6 0b001010 with bmode := .coef })).map
      (fun t => (statusWord false t, t.outq, t.byteCount, t.pkN)) =
      some (0x0000C002#32, [0x28], 1, 0) := by decide

/-- V-PK5: seven pending ones give FE, never a stuffed byte. -/
theorem test_flush_never_stuffs :
    (nextOf (exec .flush (withPending 7 0x7F))).map (fun t => t.outq) = some [0xFE] := by decide

/-! ### Errors -/

theorem test_error_seq : statusAfter (exec (.sample 0x0100) State.reset) = some 0x00000023#32 ∧
    statusAfter (exec .flush { withPending 0 0 with st := .done }) = some 0x00008023#32 := by decide

theorem test_error_mix :
    statusAfter (exec (.coef 0) (partlyWritten .sample 1)) = some 0x00000033#32 := by decide

theorem test_error_dc_cat :
    (nextOf (exec (.coef 0) (coefBlock [(0, 4000), (8, 2000)]))).map
      (fun t => (statusWord false t, t.outq, t.prevDC)) = some (0x00004043#32, [], 0) := by decide +kernel

/-- V-BLK16; the refused element is not in `buf` (R303). -/
theorem test_error_ac_cat :
    (nextOf (exec (.coef 0x8000) (coefBlock []))).map (fun t => (statusWord false t, t.outq, t.buf[63])) =
      some (0x00004053#32, [], 0) := by decide +kernel

theorem test_error_flush : statusAfter (exec .flush opened) = some 0x00000063#32 ∧
    statusAfter (exec .flush (partlyWritten .sample 5)) = some 0x00000073#32 := by decide

theorem test_error_illegal :
    statusAfter (acceptWord 0x20010000#32 opened) = some 0x00000013#32 ∧
      statusAfter (acceptWord 0x10000001#32 failed) = some 0x00000013#32 := by decide

theorem test_error_codes :
    [ErrorCode.noError.code, ErrorCode.illegal.code, ErrorCode.seq.code, ErrorCode.mix.code,
      ErrorCode.dcCat.code, ErrorCode.acCat.code, ErrorCode.empty.code, ErrorCode.partialBlock.code] =
      [0, 1, 2, 3, 4, 5, 6, 7] := by decide

/-! ### Registers and ports -/

theorem test_registers_after_block :
    (fun s : State => [readPort Config.core s 0, readPort Config.core s 1, readPort Config.core s 2,
        readPort Config.core s 3, readPort Config.core s 4, readPort Config.core s 5]) 
      { withPending 6 0b001010 with bmode := .coef, prevDC := 0xFFFF } =
      [0x0000C001, 0, 1, 0xFFFFFFFF, 0x00000A06, 0x4A504701] := by decide

theorem test_take_byte :
    (nextOf (step { opened with outq := [0xFF, 0x00], acts := [.takeByte] })).map
      (fun t => (t.rxBytes, t.outq)) = some ([0xFF], [0x00]) := by decide

theorem test_ports_during_reset :
    cmdReadyOut true opened = false ∧ outValidOut true { opened with outq := [0x28] } = false ∧
      cmdReadyOut false opened = true ∧ outDataOut { opened with outq := [0x28] } = some 0x28 := by decide

/-! ## The stages -/

/-- V-Q. -/
theorem test_quant :
    [quant 16 2621440 11, quant 16 (-2621440) 11, quant 16 524288 16, quant 16 (-524288) 16,
      quant 16 524224 16, quant 16 360448 11, quant 16 (-67108864) 1, quant 16 (-3211264) 99,
      quant 16 (-3276800) 99] = [4, -4, 1, -1, 0, 1, -1024, 0, -1] := by decide

/-- V-OPS. -/
theorem test_operands :
    (sampleValue 8 0xFF80, sampleValue 8 0x8000, coefValue 0xFE00, coefValue 0x8000) =
      (-1 / 2, -128, -512, -32768) := by decide +kernel

/-- The middle of the zigzag scan, written out from V-ZZ. -/
theorem test_zigzag :
    [zz 16, zz 17, zz 32, zz 33, zz 47, zz 62, zz 63] = [12, 19, 35, 42, 51, 62, 63] ∧
      [zzInv 7, zzInv 56, zzInv 57, zzInv 9] = [28, 35, 36, 4] := by decide

/-- V-VLI. -/
theorem test_value_bits :
    valueBits (-5) = [false, true, false] ∧ valueBits 0 = [] ∧ valueBits (-1) = [false] ∧
      valueBits 8 = [true, false, false, false] ∧ cat (-1024) = 11 ∧ cat 2048 = 12 := by decide

/-- V-VLI, R194. -/
theorem test_vli_decode :
    (vliDecode 3 0b010, vliDecode 1 0, vliDecode 0 0, vliDecode 11 0) = (-5, -1, 0, -2047) := by decide

/-- V-DC: −34 after 0, and category 11. -/
theorem test_dc_bits :
    dcBits Config.core (-34) = [true, true, true, false] ++ [false, true, true, true, false, true] ∧
      dcBits Config.core (-2047) =
        List.replicate 8 true ++ [false] ++ List.replicate 11 false := by decide +kernel

/-- V-BLK6: a run of 62 zeros, no EOB. -/
theorem test_block_bits_long_run :
    (nextOf (exec (.coef 1) (coefBlock []))).map (fun t => (t.outq, packerWord t)) =
      some ([0x3F, 0xCF, 0xF9, 0xFF, 0x00, 0x3F, 0xFD], 0x00000704#32) := by decide +kernel

/-- V-PK2, V-PK3, V-PK7. -/
theorem test_packer_stuffs :
    (packWrite { opened with pkN := 6, pkBits := 0x3F } 0b11 2).outq = [0xFF, 0x00] ∧
      (packWrite (packWrite { opened with pkN := 7, pkBits := 0x7F } 1 1) 0 1).pkN = 1 ∧
      (packWrite { opened with pkN := 1 } 0x7FFF 15).outq = [0x7F, 0xFF, 0x00] := by decide

/-- The accumulator of R248, on V-PK7. -/
theorem test_accumulator :
    (accWrite 32 { opened with pkN := 1 } 0x7FFF 15).outq = [0x7F, 0xFF, 0x00] := by decide

/-- R14. -/
theorem test_round_half_away :
    (roundHalfAway (5 / 2 : ℚ), roundHalfAway (-5 / 2 : ℚ), roundHalfAway (1 / 2 : ℚ), roundHalfAway (2 / 5 : ℚ)) =
      (3, -3, 1, 0) := by decide +kernel

/-- V-DCT, on the informative transform of R147: all samples 2.0. -/
theorem test_fixed_transform : (dctFixed (fun _ => 2) 0, dctFixed (fun _ => 2) 9) = (1048576, 0) := by
  decide +kernel

/-! ## The host's side -/

/-- V-CONT. -/
theorem test_container_segments :
    sof0Bytes 8 8 = [0xFF, 0xC0, 0x00, 0x0B, 0x08, 0x00, 0x08, 0x00, 0x08, 0x01, 0x01, 0x11, 0x00] ∧
      sosBytes = [0xFF, 0xDA, 0x00, 0x08, 0x01, 0x01, 0x00, 0x00, 0x3F, 0x00] ∧
      (dqtBytes Config.core).take 13 =
        [0xFF, 0xDB, 0x00, 0x43, 0x00, 0x10, 0x0B, 0x0C, 0x0E, 0x0C, 0x0A, 0x10, 0x0E] := by decide +kernel

/-- V-CONT. -/
theorem test_container_dht :
    dhtBytes 0x00 defaultBitsDC defaultHuffvalDC =
      [0xFF, 0xC4, 0x00, 0x1F, 0x00, 0x00, 0x01, 0x05, 0x01, 0x01, 0x01, 0x01, 0x01, 0x01] ++
      [0x00, 0x00, 0x00, 0x00, 0x00, 0x00, 0x00, 0x00, 0x01, 0x02, 0x03, 0x04, 0x05, 0x06, 0x07] ++
      [0x08, 0x09, 0x0A, 0x0B] := by decide

/-- A dimension of 0 or above 65535 is refused (R278). -/
theorem test_container_refuses :
    containerFile Config.core 0 8 [] = none ∧ containerFile Config.core 8 65536 [] = none := by
  constructor <;> simp [containerFile]

/-- E9's 10×10 image, P(X, Y) = X + 10Y − 128. -/
def plane10 (K : Type) [Field K] : Plane K := ⟨10, 10, fun X Y => (X : K) + 10 * Y - 128⟩

theorem test_segment_clamps :
    (plane10 ℚ).segment.length = 4 ∧
      (List.range 8).map (fun x => (plane10 ℚ).block 1 0 (natIndex 0 (Fin.ofNat 8 x))) =
        [-120, -119, -119, -119, -119, -119, -119, -119] ∧
      (List.range 8).map (fun x => (plane10 ℚ).block 1 1 (natIndex 7 (Fin.ofNat 8 x))) =
        [-30, -29, -29, -29, -29, -29, -29, -29] := by decide +kernel

/-- Pixels to DATA (V-OPS). -/
theorem test_sample_operand :
    [sampleOperand 8 (-128 : ℚ), sampleOperand 8 (0 : ℚ), sampleOperand 8 (127 : ℚ), sampleOperand 8 (2 : ℚ)] =
      [0x8000, 0x0000, 0x7F00, 0x0200] := by decide +kernel

/-- A plane of no width gives no commands (R266); a sample of 128 does not fit the operand (R93). -/
theorem test_image_words_refuses :
    imageWords Config.core (⟨0, 8, fun _ _ => 0⟩ : Plane ℚ) = none ∧
      imageWords Config.core (⟨1, 1, fun _ _ => 128⟩ : Plane ℚ) = none := by decide +kernel

/-- An image of a SAMPLE block and a COEF block: START, 128 elements, FLUSH (R267); a coefficient outside
int16 and a block too few are refused. -/
theorem test_image_commands :
    (imageCommands Config.core 16 8 [.samples fun _ => (2 : ℚ), .coefs fun _ => -1]).map
      (fun ws => (ws.length, ws[0]?, ws[64]?, ws[65]?, ws[129]?)) =
      some (130, some 0x10000000, some 0x20000200, some 0x3000FFFF, some 0x40000000) ∧
    imageCommands Config.core 8 8 [.coefs (K := ℚ) fun _ => 32768] = none ∧
    imageCommands Config.core 16 8 [.samples fun _ => (2 : ℚ)] = none := by decide +kernel

/-- A failed image's bytes are discarded (R267, R308). -/
theorem test_image_report :
    (imageReport 0x00008002 [0x28], imageReport 0x00004053 [0x28], imageReport 0x00000501 []) =
      (.succeeded [0x28], .failed 5, .notEnded) ∧
    imageFile Config.core 8 8 (imageReport 0x00004053 [0x28]) = none := by decide

/-- Lines that are refused: SAMPLE off the grid or out of range, COEF out of int16, a block of 63, and a
repeated or missing index (R99, R100). -/
theorem test_asm_refuses :
    [asmWords Config.core (.sample (1 / 512)), asmWords Config.core (.sample 128),
      asmWords Config.core (.coef 32768), asmWords Config.core (.coef (-32769)),
      asmWords Config.core (.blockC (List.replicate 63 0)),
      asmWords Config.core (.blockS (List.replicate 65 0)),
      asmWords Config.core (.blockCSparse [(1, 2), (1, 3)]),
      asmWords Config.core (.blockCSparse [(64, 1)])] = List.replicate 8 none := by decide +kernel

theorem test_asm_words :
    asmWords Config.core (.sample (-1 / 256)) = some [0x2000FFFF] ∧
      asmWords Config.core (.sampleRaw 0x8000) = some [0x20008000] ∧
      (asmWords Config.core (.blockCSparse [(0, 2047)])).map (fun ws => (ws.take 2, ws.length)) =
        some ([0x300007FF, 0x30000000], 64) := by
  decide +kernel

/-- Program text: case, comment, pseudo-command and host action. -/
theorem test_asm_text :
    parseLine "  block.c.sparse 0:5, 1:-1024 ; two".toList = some [.blockCSparse [(0, 5), (1, -1024)]] ∧
      parseLine ".word 0x50000000".toList = some [.word 0x50000000] ∧
      parseLine "READ STATUS".toList = some [.read 0] ∧ parseLine "START 1".toList = none := by
  decide +kernel

/-! ## Witnesses: concrete states and operands that meet each statement's hypotheses -/

/-- A full SAMPLE block of zeros, its last element still to come, after a block with this DC. -/
def zeroBlock (prevDC : BitVec 16) : State :=
  { partlyWritten .sample 63 with prevDC := prevDC, anyblk := true, blockCount := 1 }

/-- Its buffer once the last zero is stored. -/
theorem zeroBlock_buf (p : BitVec 16) : (zeroBlock p).buf.set 63 0 = Vector.replicate 64 0 := by
  show (Vector.replicate 64 (0 : Data)).set 63 0 = Vector.replicate 64 0
  decide

theorem zeroBlock_values (p : BitVec 16) (i : Fin 64) :
    quantizedBlock Config.core .sample ((zeroBlock p).buf.set 63 0) i = 0 := by
  rw [zeroBlock_buf]; exact core_zero_block i

/-! ### Encoding -/

theorem witness_DecodeAndEncodeAgree : decode 0x3000FFFF#32 = .ok (.coef 0xFFFF) := by decide

theorem witness_LegalWordsDecode :
    legalWord 0x50000000#32 = false ∧ legalWord 0x38000000#32 = false ∧ legalWord 0x00000001#32 = false := by
  decide

theorem witness_NopHasNoEffect :
    (0x00000001#32).extractLsb' 28 4 = 0 ∧ 0x00000001#32 ≠ 0 ∧ State.reset.st ≠ .error := by decide

/-- The last clause: START's word takes a failed core out of ERROR. -/
theorem witness_StartBeginsImage :
    failed.st = .error ∧ acceptWord 0x10000000#32 failed = .next (afterCommand (doStart failed)) ∧
      (afterCommand (doStart failed)).st ≠ .error := ⟨by decide, rfl, by decide⟩

/-! ### FLUSH -/

theorem witness_FlushEndsImage_pending :
    packerOk (withPending 7 0x7F) = true ∧ (withPending 7 0x7F).st = .active ∧
      (withPending 7 0x7F).fill = 0 ∧ (withPending 7 0x7F).anyblk = true := by decide

theorem witness_FlushEndsImage_empty :
    packerOk (withPending 0 0) = true ∧ (withPending 0 0).st = .active ∧
      (withPending 0 0).fill = 0 ∧ (withPending 0 0).anyblk = true := by decide

theorem witness_FlushErrorOrder :
    State.reset.st = .idle ∧
      ((partlyWritten .coef 1).st = .active ∧ 1 ≤ (partlyWritten .coef 1).fill.val) ∧
      (opened.st = .active ∧ opened.fill = 0 ∧ opened.anyblk = false) := by decide

/-! ### SAMPLE and COEF -/

theorem witness_SampleStoresElement :
    (opened.st = .active ∧ opened.fill = 0 ∧ opened.fill ≠ 63) ∧
      ((partlyWritten .sample 62).st = .active ∧ (partlyWritten .sample 62).bmode = .sample ∧
        (partlyWritten .sample 62).fill ≠ 63) := by decide

theorem witness_CoefStoresElement :
    (opened.st = .active ∧ opened.fill = 0 ∧ opened.fill ≠ 63) ∧
      ((partlyWritten .coef 62).st = .active ∧ (partlyWritten .coef 62).bmode = .coef ∧
        (partlyWritten .coef 62).fill ≠ 63) := by decide

/-- The largest difference that still passes: 0 − 2047. -/
theorem witness_SampleBlockEncodes :
    let s := zeroBlock 2047
    let buf := s.buf.set 63 0
    let f : Fin 64 → ℚ := fun i => (buf[i].toInt : ℚ) / 2 ^ 8
    let q : Fin 64 → Int := fun i => quant 16 (Config.core.dct f i) (defaultQt.getD i.val 0)
    s.st = .active ∧ s.fill = 63 ∧ s.bmode = .sample ∧
      cat (q 0 - s.prevDC.toInt) ≤ 11 ∧ ∀ i : Fin 64, i ≠ 0 → cat (q i) ≤ 10 := by
  refine ⟨rfl, rfl, rfl, ?_, fun i _ => ?_⟩
  · have h := (quantizedBlock_core_sample _ 0).symm.trans (zeroBlock_values 2047 0)
    show cat (quant 16 (Config.core.dct (blockSamples Config.core _) 0) (Config.core.qtAt 0) - 2047) ≤ 11
    rw [h]; decide
  · have h := (quantizedBlock_core_sample _ i).symm.trans (zeroBlock_values 2047 i)
    show cat (quant 16 (Config.core.dct (blockSamples Config.core _) i) (Config.core.qtAt i)) ≤ 10
    rw [h]; decide

/-- The largest categories that pass: a difference of 2047 and an AC coefficient of −1023. -/
theorem witness_CoefBlockEncodes :
    let s := coefBlock [(0, 2047), (1, 0xFC01)]
    let buf := s.buf.set 63 0
    s.st = .active ∧ s.fill = 63 ∧ s.bmode = .coef ∧
      cat (buf[0].toInt - s.prevDC.toInt) = 11 ∧ cat (buf[1].toInt) = 10 ∧
      ∀ i : Fin 64, i ≠ 0 → cat (buf[i].toInt) ≤ 10 := by decide +kernel

/-- A SAMPLE block after a COEF block of DC 2048, and a COEF block. -/
theorem witness_BlockRefusedWhole_dc :
    let s := zeroBlock 2048
    let q := quantizedBlock Config.core s.bmode (s.buf.set 63 0)
    s.st = .active ∧ s.fill = 63 ∧ 11 < cat (q 0 - s.prevDC.toInt) := by
  refine ⟨rfl, rfl, ?_⟩
  show 11 < cat (quantizedBlock Config.core .sample ((zeroBlock 2048).buf.set 63 0) 0 - _)
  rw [zeroBlock_values]; decide

theorem witness_BlockRefusedWhole_ac :
    let s := coefBlock [(0, 2047), (1, 1024)]
    let q := quantizedBlock Config.core s.bmode (s.buf.set 63 0)
    s.st = .active ∧ s.fill = 63 ∧ cat (q 0 - s.prevDC.toInt) ≤ 11 ∧
      ∃ i : Fin 64, i ≠ 0 ∧ 10 < cat (q i) :=
  ⟨rfl, rfl, by decide +kernel, 1, by decide +kernel⟩

theorem witness_SampleBlockCompletesWithDefaultTables :
    ((zeroBlock 1983).st = .active ∧ (zeroBlock 1983).fill = 63 ∧ (zeroBlock 1983).bmode = .sample ∧
      (zeroBlock 1983).prevDC.toInt.natAbs ≤ 1983) ∧
      (zeroBlock (-1983)).prevDC.toInt.natAbs ≤ 1983 := by decide

theorem witness_SampleBlockNeverRaisesCategoryError :
    (zeroBlock 0).Inv ∧ (zeroBlock 0).st = .active ∧ (zeroBlock 0).fill = 63 ∧
      (zeroBlock 0).bmode = .sample ∧ ∃ t, exec (.sample 0) (zeroBlock 0) = .next t :=
  ⟨by unfold State.Inv; decide, rfl, rfl, rfl, _, rfl⟩

/-! ### Errors -/

theorem witness_SeqErrorOutsideOpenImage :
    State.reset.st = .idle ∧ ({ withPending 0 0 with st := .done } : State).st = .done := by decide

theorem witness_MixErrorInsideBlock :
    ((partlyWritten .sample 1).st = .active ∧ (partlyWritten .sample 1).fill ≠ 0 ∧
      BlockKind.coef ≠ (partlyWritten .sample 1).bmode) ∧ (opened.st = .active ∧ opened.fill = 0) := by
  decide

theorem witness_ErrorIgnoresAllButStart :
    failed.st = .error ∧ Instr.flush ≠ .start ∧ 0x10000001#32 ≠ 0x10000000#32 := by decide

/-- One step for each of the three outcomes. -/
theorem witness_ErrorHeldUntilStartOrReset :
    failed.st = .error ∧ (∃ t, step { failed with cmdq := [0x40000000#32] } = .next t) ∧
      (∃ t, step { failed with cmdq := [0x10000000#32] } = .next t) ∧
      ∃ t, step { failed with acts := [.reset] } = .next t :=
  ⟨rfl, ⟨_, rfl⟩, ⟨_, rfl⟩, _, rfl⟩

theorem witness_ErrorLeavesRestUnchanged :
    opened.st ≠ .error ∧ exec .flush opened = .next (raiseError .empty opened) ∧
      (raiseError .empty opened).st = .error ∧
      ∃ t, acceptWord 0x50000000#32 opened = .next t ∧ t.st = .error :=
  ⟨by decide, rfl, rfl, _, rfl, by decide⟩

/-- The refused 64th element. -/
theorem witness_ErrorLeavesRestUnchanged_block :
    (nextOf (exec (.coef 0x8000) (coefBlock []))).map (fun t => (t.st, t.errcode)) =
      some (.error, .acCat) ∧ (coefBlock []).st ≠ .error := by decide +kernel

theorem witness_ImageStateChangers :
    ((nextOf (step { State.reset with cmdq := [0x10000000#32] })).map (fun t => t.st) = some .active) ∧
    ((nextOf (step { withPending 0 0 with cmdq := [0x40000000#32] })).map (fun t => t.st) = some .done) ∧
    ((nextOf (step { opened with cmdq := [0x50000000#32] })).map (fun t => t.st) = some .error) ∧
    ((nextOf (step { opened with acts := [.reset] })).map (fun t => t.st) = some .idle) := by decide

/-! ### The packer -/

theorem witness_PackerKeepsLogicalBitstream : packerOk (withPending 7 0x7F) = true := by decide

theorem witness_AccumulatorWidthUnobservable :
    packerOk (withPending 7 0x7F) = true ∧ 7 + 1 ≤ 8 ∧ 7 + 25 ≤ Config.core.accWidth := by decide

/-- A command that pushes, one that ends a block, and a block the host sends. -/
theorem witness_PackerOutputBound :
    Instr.coef 1 ≠ .start ∧ (coefBlock []).fill = 63 ∧ (∃ t, exec (.coef 1) (coefBlock []) = .next t) ∧
      (∃ words, blockWords Config.core (HostBlock.coefs (K := ℝ) fun _ => 32767) = some words) ∧
      ∃ t, step { opened with cmdq := [0x20000000#32] } = .next t :=
  ⟨by decide, rfl, ⟨_, rfl⟩, ⟨_, by simp [blockWords, coefInRange]; rfl⟩, _, rfl⟩

theorem witness_EmitByteStuffsFF : (0xFF : Byte) = 0xFF ∧ (0xFE : Byte) ≠ 0xFF := by decide

theorem witness_ByteCountCountsPushedBytes :
    Instr.flush ≠ .start ∧ (∃ t, exec .flush (withPending 1 1) = .next t) ∧
      (exec .flush opened = .next (raiseError .empty opened)) ∧ (raiseError .empty opened).st = .error :=
  ⟨by decide, ⟨_, rfl⟩, rfl, rfl⟩

/-! ### The entropy coder -/

theorem witness_CategoryIsBitLength : 1 ≤ (12 : Nat) ∧ 2 ^ 11 ≤ (2048 : Int).natAbs ∧
    (2048 : Int).natAbs ≤ 2 ^ 12 - 1 := by decide

theorem witness_ValueBitsOnesComplement : (0 : Int) ≤ 0 ∧ (-1 : Int) < 0 := by decide

theorem witness_VliRoundTrip : (1 : Int) ≠ 0 ∧ (-1 : Int) ≠ 0 := by decide

theorem witness_RunLengthSymbols : (-1 : Int) ≠ 0 := by decide

/-- The three kinds of block. -/
theorem witness_EndOfBlockOnlyAfterZero :
    (fun k : Fin 64 => if k = 1 then (1 : Int) else 0) 63 = 0 ∧
      (fun k : Fin 64 => if k = 63 then (1 : Int) else 0) 63 ≠ 0 ∧
      ∀ k : Fin 64, k ≠ 0 → (fun k : Fin 64 => if k = 0 then (1 : Int) else 0) k = 0 := by decide

theorem witness_LookedUpSymbolsHaveCodes : Config.core.WellFormed = true := core_wellFormed

theorem witness_HuffmanCodesPrefixFree :
    Config.core.WellFormed = true ∧ 0 ∈ dcSymbols ∧ 11 ∈ dcSymbols ∧ 0x00 ∈ acSymbols ∧ 0xFA ∈ acSymbols :=
  ⟨core_wellFormed, by decide, by decide, by decide, by decide⟩

theorem witness_BlockBitsUniquelyDecodable :
    Config.core.WellFormed = true ∧ entropyCheck (fun k => if k = 0 then 2047 else 1023) 0 = none :=
  ⟨core_wellFormed, by decide +kernel⟩

theorem witness_BlockBitsBounded :
    entropyCheck (fun k => if k = 0 then -2047 else -1023) 0 = none := by decide +kernel

/-! ### Zigzag, quantizer, transform -/

theorem witness_QuantizerRoundsHalfAway : 1 ≤ (1 : Nat) ∧ 1 ≤ (255 : Nat) := by decide

/-- An exact half, and one unit below it. -/
theorem witness_QuantizerCornerCases :
    1 ≤ (16 : Nat) ∧ 2 * (524288 : Int).natAbs = (2 * 0 + 1) * (16 * 2 ^ 16) ∧
      2 * (-524287 : Int).natAbs < 16 * 2 ^ 16 ∧ (0 : Int) < 524288 ∧ (-524287 : Int) < 0 := by decide

theorem witness_CoefficientRange : (∀ i : Fin 64, |(fun _ : Fin 64 => (-128 : ℚ)) i| ≤ 128) ∧
    Config.core.WellFormed = true ∧ Config.core.DctWithinTol ∧ 8 ≤ Config.core.sampleFracBits ∧
      Config.core.dctTol < 1 / 2 :=
  ⟨fun i => by norm_num, core_wellFormed, Config.core_dctWithinTol, le_refl 8,
    by show (1 / 1000 : ℚ) < 1 / 2; norm_num⟩

theorem witness_AllEqualBlockTransform : Config.core.DctWithinTol := Config.core_dctWithinTol

theorem witness_QuantizedSampleRange :
    Config.core.WellFormed = true ∧ Config.core.DctWithinTol ∧ Config.core.sampleFracBits = 8 ∧
      Config.core.dctTol < 1 / 2 :=
  ⟨core_wellFormed, Config.core_dctWithinTol, rfl, by show (1 / 1000 : ℚ) < 1 / 2; norm_num⟩

/-! ### Registers, ports and steps -/

theorem witness_ReadRegisterMap :
    busy (withPending 7 0x7F) = false ∧ ({ opened with outq := [0x28] } : State).outq ≠ [] ∧
      ({ opened with acts := [.readReg 7] } : State).acts = .readReg 7 :: [] := by decide

theorem witness_StatusRegisterFields :
    busy State.reset = false ∧ busy { opened with outq := [0x28] } = true ∧
      busy { opened with work := 1 } = true := by decide

/-- The levels held, cleared by START's word, and `err_o` in the place of `done_o`. -/
theorem witness_DoneAndErrorLevels :
    let done : State := { withPending 0 0 with st := .done }
    (doneOut done = true ∧ ∃ t, step { done with cmdq := [0x00000000#32] } = .next t) ∧
    (∃ t, step { done with cmdq := [0x40000000#32] } = .next t ∧ errOut t = true) ∧
    (errOut failed = true ∧ ∃ t, step { failed with cmdq := [0x10000000#32] } = .next t) ∧
    ∃ t, exec .start failed = .next t :=
  ⟨⟨by decide, _, rfl⟩, ⟨_, rfl, by decide⟩, ⟨by decide, _, rfl⟩, _, rfl⟩

theorem witness_QuiescenceIsStable :
    let s : State := { opened with acts := [.readReg 0] }
    busy s = false ∧ (∃ t, step s = .next t ∧ t.cmdq = s.cmdq) ∧ s.acts.head? ≠ some .reset :=
  ⟨by decide, ⟨_, rfl, rfl⟩, by decide⟩

theorem witness_BusyClearsWithoutCommands :
    let s : State := { opened with work := 3 }
    s.outq = [] ∧ s.acts = [] ∧ s.cmdq = [] ∧ busy s = true := by decide

/-- The three turns in which a word is accepted, for a command and for an illegal word. -/
theorem witness_StepRunsAcceptedCommand :
    (∃ u : State, ({ opened with cmdq := [0x40000000#32] } : State).acts = [] ∧
      u = { opened with cmdq := [] }) ∧
    (({ opened with cmdq := [0x50000000#32], acts := [.tryCommand], ready := true } : State).acts =
      .tryCommand :: []) ∧
    (({ opened with cmdq := [0x00000000#32], acts := [.sendCommand] } : State).outq = [] ∧
      ({ opened with cmdq := [0x00000000#32], acts := [.sendCommand] } : State).acts = .sendCommand :: []) ∧
    decode 0x40000000#32 = .ok .flush ∧ exec .flush opened = .next (raiseError .empty opened) ∧
    decode 0x50000000#32 = .error .reservedOpcode :=
  ⟨⟨_, by decide, rfl⟩, by decide, by decide, by decide, rfl, by decide⟩

theorem witness_FetchWordIsNextCommand :
    decodeTableWord 32 0x40000000 = some .flush ∧
      ∃ t, exec .flush { State.reset with ready := true } = .next t := ⟨by decide, _, rfl⟩

theorem witness_ResetEdge :
    ({ withPending 3 5 with acts := [.reset, .drain], outq := [0x28] } : State).acts = .reset :: [.drain] := by
  decide

theorem witness_AcceptanceIgnoresTheWord :
    (∃ t, step { opened with cmdq := 0x10000000#32 :: [] } = .next t) ∧
      (∃ t, step { opened with cmdq := 0xFFFFFFFF#32 :: [] } = .next t) ∧ opened.acts = [] ∧
      opened.outq = [] := ⟨⟨_, rfl⟩, ⟨_, rfl⟩, by decide, by decide⟩

theorem witness_BytesDeliveredOnceInOrder :
    let s : State := { opened with outq := [0xFF, 0x00], acts := [.takeByte] }
    (∃ t, step s = .next t ∧ t.rxBytes ≠ s.rxBytes) ∧ s.acts.head? ≠ some .reset :=
  ⟨⟨_, rfl, by decide⟩, by decide⟩

theorem witness_DrainDeliversAll :
    ({ opened with outq := [0xFF, 0x00], acts := [.drain] } : State).acts = .drain :: [] := by decide

theorem witness_InvariantKeptByStep :
    let s : State := { withPending 7 0x7F with cmdq := [0x40000000#32] }
    s.Inv ∧ ∃ t, step s = .next t := ⟨by unfold State.Inv; decide, _, rfl⟩

/-- Two states that differ in the last element of the buffer only. -/
theorem witness_UnwrittenBufferUnobservable :
    let s : State := { partlyWritten .coef 5 with cmdq := [0x30000001#32] }
    let s' : State := { s with buf := s.buf.set 63 7 }
    s' = { s with buf := s'.buf } ∧ (∀ j : Fin 64, j < s.fill → s'.buf[j] = s.buf[j]) ∧
      (∃ t, step s = .next t) ∧ ∃ t', step s' = .next t' :=
  ⟨rfl, by decide +kernel, ⟨_, rfl⟩, _, rfl⟩

/-! ### The host's side -/

theorem witness_SegmentationClampsAtEdges :
    let p := plane10 ℝ
    let even : Plane ℝ := ⟨16, 8, fun X Y => X + Y⟩
    (p.width ≠ 0 ∧ p.height ≠ 0 ∧
      ∀ X Y : Nat, X < p.width → Y < p.height → p.sample X Y = p.sample X Y) ∧
    (even.width % 8 = 0 ∧ even.height % 8 = 0 ∧ 1 < even.width / 8 ∧ 0 < even.height / 8) ∧
    1 < (p.width + 7) / 8 ∧ 1 < (p.height + 7) / 8 :=
  ⟨⟨by simp [plane10], by simp [plane10], fun _ _ _ _ => rfl⟩, by simp, by simp [plane10], by simp [plane10]⟩

theorem witness_ContainerFramesScan : 1 ≤ 1 ∧ 1 ≤ 65535 ∧ 65535 ≤ 65535 := by decide

theorem witness_AssembledWordsAreLegal :
    (∀ w : Word, AsmLine.coef (-32768) ≠ .word w) ∧
      asmWords Config.core (.coef (-32768)) = some [0x30008000] ∧
      (∀ w : Word, AsmLine.blockC (List.replicate 64 32767) ≠ .word w) ∧
      asmWords Config.core (.blockC (List.replicate 64 32767)) = some (List.replicate 64 0x30007FFF) ∧
      (∃ words, imageCommands Config.core 8 8 [.coefs (K := ℝ) fun _ => -32768] = some words) ∧
      sampleInRange 8 (-128 : ℝ) = true :=
  ⟨fun _ h => (nomatch h), by decide, fun _ h => (nomatch h), by decide +kernel,
    ⟨_, by simp [imageCommands, blocksAlong, blockWords, coefInRange]; rfl⟩, by norm_num [sampleInRange]⟩

end Sys2Proof.Tests
end

section
/-!
What one accepted command and one whole step can do, as relations with a constructor for each case.
-/

namespace Sys2Proof.Machine

/-- A word whose RSVD field is 0 is made of its opcode and its DATA (R90). -/
theorem commandWord_fields {w : Word} (h : rsvdField w = 0) :
    commandWord (opcField w) (dataField w) = w := by
  unfold rsvdField at h
  unfold commandWord opcField dataField
  rw [← h, BitVec.extractLsb'_append_extractLsb'_eq_extractLsb' (by decide),
    BitVec.extractLsb'_append_extractLsb'_eq_extractLsb' (by decide), BitVec.extractLsb'_eq_self]

/-- A word that decodes to a command is the word that command encodes as (R91, R96). -/
theorem encode_of_decode {w : Word} {i : Instr} (h : decode w = .ok i) : encode i = w := by
  unfold decode at h
  split at h
  · cases h
  split at h
  · cases h
  next hr =>
  have hw := commandWord_fields (not_not.mp hr)
  unfold opcodeMap at h
  split_ifs at h <;> cases h <;> simp_all [encode]

/-- What a command can do in state `s`, `none` standing for an illegal word (40_commands.md R110). -/
inductive CommandEffect (s : State) : Option Instr → State → Prop where
  /-- START begins an image in every state (R112). -/
  | started : CommandEffect s (some .start) (doStart s)
  /-- NOP does nothing (R111). -/
  | nop : CommandEffect s (some .nop) s
  /-- In ERROR every other command, and an illegal word, is ignored (R309). -/
  | ignored {o : Option Instr} (herr : s.st = .error) (ho : o ≠ some .start) : CommandEffect s o s
  /-- An error is raised (R303). -/
  | raised {o : Option Instr} {e : ErrorCode} (herr : s.st ≠ .error) (ho : o ≠ some .start)
      (hn : o ≠ some .nop) (he : e ≠ .noError) : CommandEffect s o (raiseError e s)
  /-- An element that is not the block's last is stored (R113). -/
  | stored (k : BlockKind) (d : Data) (hst : s.st = .active) (hfill : s.fill ≠ 63) :
      CommandEffect s (some (elementInstr k d)) { storeElement k d s with fill := s.fill + 1 }
  /-- The block's last element encodes the block (R116). -/
  | encoded (k : BlockKind) (d : Data) (dc : Int) (bits : List Bool) (hst : s.st = .active)
      (hfill : s.fill = 63) :
      CommandEffect s (some (elementInstr k d)) (closeBlock dc (packBits (storeElement k d s) bits))
  /-- FLUSH ends the image (R118). -/
  | flushed (hst : s.st = .active) (hfill : s.fill = 0) (hblk : s.anyblk = true) :
      CommandEffect s (some .flush) { packFlush s with st := .done }

/-- The entropy check never answers code 0 (R199). -/
theorem entropyCheck_ne_noError {z : Fin 64 → Int} {p : Int} {e : ErrorCode}
    (h : entropyCheck z p = some e) : e ≠ .noError := by
  unfold entropyCheck at h
  split_ifs at h <;> cases h <;> decide

theorem elementInstr_ne_start (k : BlockKind) (d : Data) : some (elementInstr k d) ≠ some .start := by
  cases k <;> simp [elementInstr]

theorem elementInstr_ne_nop (k : BlockKind) (d : Data) : some (elementInstr k d) ≠ some .nop := by
  cases k <;> simp [elementInstr]

theorem doWrite_effect (k : BlockKind) (d : Data) (s : State) :
    CommandEffect s (some (elementInstr k d)) (unlessError s (doWrite Config.core k d s)) := by
  by_cases herr : s.st = .error
  · rw [unlessError_of_error herr]
    exact .ignored herr (elementInstr_ne_start k d)
  rw [unlessError_of_ne herr]
  have raised {e : ErrorCode} (he : e ≠ .noError) :
      CommandEffect s (some (elementInstr k d)) (raiseError e s) :=
    .raised herr (elementInstr_ne_start k d) (elementInstr_ne_nop k d) he
  obtain ⟨-, h⟩ | ⟨-, -, -, h⟩ | ⟨-, -, -, b, e, -, hc, h⟩ | ⟨hst, -, hfill, b, rfl, -, h⟩ |
    ⟨hst, -, hfill, h⟩ := doWrite_cases Config.core k d s <;> rw [h]
  · exact raised (by decide)
  · exact raised (by decide)
  · exact raised (entropyCheck_ne_noError hc)
  · exact .encoded k d _ _ hst hfill
  · exact .stored k d hst hfill

theorem doFlush_effect (s : State) :
    CommandEffect s (some .flush) (unlessError s (doFlush s)) := by
  by_cases herr : s.st = .error
  · rw [unlessError_of_error herr]
    exact .ignored herr (by decide)
  rw [unlessError_of_ne herr]
  have raised {e : ErrorCode} (he : e ≠ .noError) : CommandEffect s (some .flush) (raiseError e s) :=
    .raised herr (by decide) (by decide) he
  obtain ⟨-, h⟩ | ⟨-, -, h⟩ | ⟨-, -, -, h⟩ | ⟨hst, hfill, hblk, h⟩ := doFlush_cases s <;> rw [h]
  · exact raised (by decide)
  · exact raised (by decide)
  · exact raised (by decide)
  · exact .flushed hst hfill hblk

theorem takeIllegal_effect (s : State) : CommandEffect s none (takeIllegal s) := by
  unfold takeIllegal
  by_cases herr : s.st = .error
  · rw [unlessError_of_error herr]
    exact .ignored herr (by decide)
  · rw [unlessError_of_ne herr]
    exact .raised herr (by decide) (by decide) (by decide)

theorem nextState_effect (i : Instr) (s : State) : CommandEffect s (some i) (nextState i s) := by
  cases i with
  | nop => exact .nop
  | start => exact .started
  | sample d => exact doWrite_effect .sample d s
  | coef d => exact doWrite_effect .coef d s
  | flush => exact doFlush_effect s

theorem acceptState_effect (w : Word) (s : State) :
    CommandEffect s (decode w).toOption (acceptState w s) := by
  unfold acceptState
  cases decode w with
  | ok i => exact nextState_effect i s
  | error _ => exact takeIllegal_effect s

/-- An accepted word that is read as a command is the command's own. -/
theorem eq_encode_of_toOption_decode {w : Word} {i : Instr} (h : (decode w).toOption = some i) :
    w = encode i := by
  cases hd : decode w with
  | ok j =>
    rw [hd] at h
    cases h
    exact (encode_of_decode hd).symm
  | error _ => rw [hd] at h; cases h

/-- What a whole step can do: an edge of reset, a word accepted, no transfer of the core's, or one byte
delivered (20_memory.md R61 to R65). -/
inductive StepEffect (s : State) : State → Prop where
  | reset {rest : List HostAct} (hact : s.acts = .reset :: rest) :
      StepEffect s (passTime (resetCore { s with acts := rest }))
  | accepted {w : Word} {words : List Word} (hq : s.cmdq = w :: words)
      (hready : s.outq = [] ∨ s.ready = true) (acts : List HostAct) :
      StepEffect s (afterCommand (acceptState w { s with cmdq := words, acts := acts }))
  | passed (acts : List HostAct) (rd : Word) :
      StepEffect s (passTime { s with acts := acts, rdData := rd })
  | delivered {b : Byte} {rest : List Byte} (hout : s.outq = b :: rest) (acts : List HostAct) :
      StepEffect s (passTime { s with outq := rest, rxBytes := s.rxBytes ++ [b], acts := acts })

theorem commandTurn_effect {s t : State} {acts : List HostAct}
    (h : commandTurn { s with acts := acts } = .next t) : StepEffect s t := by
  obtain ⟨w, words, hq, hready, ht⟩ | ⟨-, ht⟩ := commandTurn_cases { s with acts := acts } <;>
    rw [ht] at h <;> cases h
  · exact StepEffect.accepted (s := s) hq hready acts
  · exact .passed acts s.rdData

theorem deliverByte_cases (s : State) :
    (s.outq = [] ∧ deliverByte s = s) ∨
    (∃ b rest, s.outq = b :: rest ∧
      deliverByte s = { s with outq := rest, rxBytes := s.rxBytes ++ [b] }) := by
  cases h : s.outq with
  | nil => exact .inl ⟨rfl, deliverByte_nil h⟩
  | cons b rest => exact .inr ⟨b, rest, rfl, deliverByte_cons h⟩

/-- A delivery after which the host's acts are `after`, with or without a byte to deliver. -/
theorem deliverByte_effect (s : State) (acts after : List HostAct) :
    StepEffect s (passTime { deliverByte { s with acts := acts } with acts := after }) := by
  obtain ⟨-, h⟩ | ⟨b, rest, hout, h⟩ := deliverByte_cases { s with acts := acts } <;> rw [h]
  · exact .passed after s.rdData
  · exact StepEffect.delivered (s := s) hout after

theorem step_effect {s t : State} (h : step s = .next t) : StepEffect s t := by
  cases hacts : s.acts with
  | nil =>
    rw [step_of_no_acts hacts] at h
    exact commandTurn_effect (acts := s.acts) h
  | cons a rest =>
    rw [step_of_act hacts] at h
    cases a with
    | tryCommand => exact commandTurn_effect h
    | sendCommand =>
      simp only [hostTurn] at h
      split at h
      · cases h
        exact deliverByte_effect s rest _
      · exact commandTurn_effect h
    | takeByte =>
      cases h
      exact deliverByte_effect s rest _
    | readReg addr =>
      cases h
      exact .passed rest _
    | drain =>
      simp only [hostTurn] at h
      split at h <;> cases h
      · exact deliverByte_effect s rest _
      · exact .passed rest s.rdData
    | waitIdle =>
      simp only [hostTurn] at h
      split at h <;> cases h
      · exact .passed (.waitIdle :: rest) _
      · exact .passed rest _
    | reset =>
      cases h
      exact .reset hacts

end Sys2Proof.Machine
end

section
/-!
The image state over commands and whole steps (10_state.md R33, R34).
-/

namespace Sys2Proof.Machine

/-- A command or an illegal word leaves the host's offers, acts and received values as they were. -/
theorem CommandEffect.hostFrame {s t : State} {o : Option Instr} (h : CommandEffect s o t) :
    t = { t with
      cmdq := s.cmdq, acts := s.acts, ready := s.ready, work := s.work, tick := s.tick
      rxBytes := s.rxBytes, rdData := s.rdData } := by
  cases h with
  | encoded k d dc bits => rw [packBits_frame (storeElement k d s) bits]; rfl
  | flushed => rw [packFlush_frame s]
  | _ => rfl

/-- In ERROR only START does anything (R309). -/
theorem CommandEffect.of_error {s t : State} {o : Option Instr} (h : CommandEffect s o t)
    (herr : s.st = .error) : (o = some .start ∧ t = doStart s) ∨ t = s := by
  cases h with
  | started => exact .inl ⟨rfl, rfl⟩
  | nop => exact .inr rfl
  | ignored => exact .inr rfl
  | raised hne => exact absurd herr hne
  | stored _ _ hst => simp [herr] at hst
  | encoded _ _ _ _ hst => simp [herr] at hst
  | flushed hst => simp [herr] at hst

/-- Only START, FLUSH in an open image, and a raised error change the image state (R33, R119). -/
theorem CommandEffect.of_st_ne {s t : State} {o : Option Instr} (h : CommandEffect s o t)
    (hne : t.st ≠ s.st) :
    (o = some .start ∧ t.st = .active) ∨
    (o = some .flush ∧ s.st = .active ∧ t.st = .done) ∨
    (o ≠ some .start ∧ o ≠ some .nop ∧ s.st ≠ .error ∧ t.st = .error ∧ t.errcode ≠ .noError) := by
  cases h with
  | started => exact .inl ⟨rfl, rfl⟩
  | nop => exact absurd rfl hne
  | ignored => exact absurd rfl hne
  | raised herr hs hn he => exact .inr (.inr ⟨hs, hn, herr, rfl, he⟩)
  | stored => exact absurd rfl hne
  | encoded k d dc bits => exact absurd (samePackerFrame_st (packBits_frame (storeElement k d s) bits)) hne
  | flushed hst => exact .inr (.inl ⟨rfl, hst, rfl⟩)

theorem ne_start_word {w : Word} (h : (decode w).toOption ≠ some .start) : w ≠ 0x10000000#32 := by
  rintro rfl
  exact h (by decide)

theorem ne_nop_word {w : Word} (h : (decode w).toOption ≠ some .nop) : w ≠ 0x00000000#32 := by
  rintro rfl
  exact h (by decide)

/-- Settles O19: of the things a step can do in ERROR, only START's word and an edge of reset leave it. -/
theorem errorHeldUntilStartOrReset : Obligations.ErrorHeldUntilStartOrReset := by
  intro s t hst hstep
  cases step_effect hstep with
  | reset hact => exact .inr (.inr ⟨by rw [hact]; rfl, rfl⟩)
  | @accepted w words hq _ acts =>
    obtain ⟨ho, h⟩ | h := (acceptState_effect w { s with cmdq := words, acts := acts }).of_error hst <;>
      rw [h]
    · have hw : w = 0x10000000#32 := eq_encode_of_toOption_decode ho
      exact .inr (.inl ⟨words, hw ▸ hq, rfl, rfl⟩)
    · exact .inl (by simp [hst])
  | passed => exact .inl (by simp [hst])
  | delivered hout => exact .inl (by simp [hst, hout])

/-- Settles O21, by the things a step can do and the things the accepted word can do. -/
theorem imageStateChangers : Obligations.ImageStateChangers := by
  intro s t hstep hne
  cases step_effect hstep with
  | reset hact => exact .inl ⟨by rw [hact]; rfl, rfl⟩
  | @accepted w words hq _ acts =>
    have heff := acceptState_effect w { s with cmdq := words, acts := acts }
    refine .inr ⟨w, words, hq, congrArg State.cmdq heff.hostFrame, ?_⟩
    obtain ⟨ho, hst⟩ | ⟨ho, hst⟩ | ⟨hs, hn, hst⟩ := heff.of_st_ne hne
    · exact .inl ⟨eq_encode_of_toOption_decode ho, hst⟩
    · exact .inr (.inl ⟨eq_encode_of_toOption_decode ho, hst⟩)
    · exact .inr (.inr ⟨ne_start_word hs, ne_nop_word hn, hst⟩)
  | passed => exact absurd rfl hne
  | delivered => exact absurd rfl hne

end Sys2Proof.Machine
end

section
/-!
What commands push onto `outq` and the machine's invariant (45_bitpacker.md R244, R246, R250; Safety.lean).
-/

namespace Sys2Proof.Machine

theorem stuffedBytes_tail {b : Byte} {bs : List Byte} (h : stuffedBytes (b :: bs) = true) :
    stuffedBytes bs = true := by
  cases bs with
  | nil => rfl
  | cons c rest => exact (Bool.and_eq_true_iff.mp h).2

theorem stuffedBytes_append {as bs : List Byte} (ha : stuffedBytes as = true)
    (hb : stuffedBytes bs = true) : stuffedBytes (as ++ bs) = true := by
  induction as using stuffedBytes.induct with
  | case1 => exact hb
  | case2 b => cases bs <;> simp_all [stuffedBytes]
  | case3 b c rest ih => simp_all [stuffedBytes]

theorem stuffedBytes_stuffed (b : Byte) : stuffedBytes (stuffed b) = true := by
  unfold stuffed
  split <;> simp_all [stuffedBytes]

/-- `t` has the output queue of `s` and some more bytes, stuffed and counted (R244, R246, R250). -/
def Pushes (s t : State) : Prop :=
  ∃ pushed : List Byte, stuffedBytes pushed = true ∧ t.outq = s.outq ++ pushed ∧
    t.byteCount = s.byteCount + BitVec.ofNat 32 pushed.length

theorem pushes_of_eq {s t : State} (ho : t.outq = s.outq) (hc : t.byteCount = s.byteCount) :
    Pushes s t := ⟨[], rfl, by simp [ho], by simp [hc]⟩

theorem Pushes.trans {s t u : State} (h1 : Pushes s t) (h2 : Pushes t u) : Pushes s u := by
  obtain ⟨p, hp, hpo, hpc⟩ := h1
  obtain ⟨q, hq, hqo, hqc⟩ := h2
  refine ⟨p ++ q, stuffedBytes_append hp hq, by simp [hpo, hqo], ?_⟩
  rw [hqc, hpc, List.length_append, BitVec.ofNat_add, BitVec.add_assoc]

theorem emitByte_pushes (b : Byte) (s : State) : Pushes s (emitByte b s) :=
  ⟨stuffed b, stuffedBytes_stuffed b, rfl, rfl⟩

theorem packBit_pushes (s : State) (b : Bool) : Pushes s (packBit s b) := by
  unfold packBit
  split
  · exact emitByte_pushes _ _
  · exact pushes_of_eq rfl rfl

theorem packBits_pushes (s : State) (bs : List Bool) : Pushes s (packBits s bs) := by
  induction bs generalizing s with
  | nil => exact pushes_of_eq rfl rfl
  | cons b bs ih => exact (packBit_pushes s b).trans (ih _)

theorem packFlush_pushes (s : State) : Pushes s (packFlush s) := by
  unfold packFlush
  split
  · exact pushes_of_eq rfl rfl
  · exact emitByte_pushes _ _

/-- Every command but START only adds to the output queue and to `byte_count` (R40). -/
theorem CommandEffect.pushes {s t : State} {o : Option Instr} (h : CommandEffect s o t)
    (ho : o ≠ some .start) : Pushes s t := by
  cases h with
  | started => exact absurd rfl ho
  | nop => exact pushes_of_eq rfl rfl
  | ignored => exact pushes_of_eq rfl rfl
  | raised => exact pushes_of_eq rfl rfl
  | stored => exact pushes_of_eq rfl rfl
  | encoded k d _ bits => exact packBits_pushes (storeElement k d s) bits
  | flushed => exact packFlush_pushes s

/-- A command that ends in ERROR pushes and counts nothing (R303). -/
theorem CommandEffect.output_of_error {s t : State} {o : Option Instr} (h : CommandEffect s o t)
    (herr : t.st = .error) : t.outq = s.outq ∧ t.byteCount = s.byteCount := by
  cases h with
  | started => simp at herr
  | nop => exact ⟨rfl, rfl⟩
  | ignored => exact ⟨rfl, rfl⟩
  | raised => exact ⟨rfl, rfl⟩
  | stored => exact ⟨rfl, rfl⟩
  | encoded k d _ bits hst =>
    have hframe := samePackerFrame_st (packBits_frame (storeElement k d s) bits)
    simp [hframe, hst] at herr
  | flushed => simp at herr

/-- Settles O26, by the things a command can do. -/
theorem byteCountCountsPushedBytes : Obligations.ByteCountCountsPushedBytes := by
  intro i s t hi hexec
  obtain rfl := exec_next_iff.mp hexec
  have heff := nextState_effect i s
  by_cases herr : (nextState i s).st = .error
  · obtain ⟨hout, hcount⟩ := heff.output_of_error herr
    exact ⟨[], by simp [hout], by simp [hcount], fun _ => rfl⟩
  · obtain ⟨pushed, -, hout, hcount⟩ := heff.pushes (by simpa using hi)
    exact ⟨pushed, hout, hcount, fun h => absurd h herr⟩

theorem packerOk_iff {s : State} : packerOk s = true ↔ s.pkBits.toNat < 2 ^ s.pkN.val := by
  simp [packerOk]

/-- A concatenation as a sum: the high part counts in units of the low part's size. -/
theorem append_toNat {n m : Nat} (x : BitVec n) (y : BitVec m) :
    (x ++ y).toNat = x.toNat * 2 ^ m + y.toNat := by
  rw [BitVec.toNat_append, ← Nat.shiftLeft_add_eq_or_of_lt y.isLt, Nat.shiftLeft_eq]

theorem shiftIn_toNat (bits : BitVec 7) (b : Bool) :
    (shiftIn bits b).toNat = 2 * bits.toNat + b.toNat := by
  unfold shiftIn
  rw [append_toNat, BitVec.toNat_ofBool]
  omega

/-- A bit written keeps the pending bits within their count (R242). -/
theorem packBit_packerOk {s : State} (h : packerOk s = true) (b : Bool) :
    packerOk (packBit s b) = true := by
  rw [packerOk_iff] at h ⊢
  unfold packBit
  split
  · simp
  · next hn =>
    have hN : (s.pkN + 1).val = s.pkN.val + 1 := Fin.val_add_one_of_lt (Fin.lt_last_iff_ne_last.mpr hn)
    have hlt := Nat.mod_le (shiftIn s.pkBits b).toNat (2 ^ 7)
    rw [shiftIn_toNat] at hlt
    have hb := Bool.toNat_le b
    simp only [BitVec.toNat_setWidth, hN, pow_succ, shiftIn_toNat]
    omega

theorem packBits_packerOk {s : State} (h : packerOk s = true) (bs : List Bool) :
    packerOk (packBits s bs) = true := by
  induction bs generalizing s with
  | nil => exact h
  | cons b bs ih => exact ih (packBit_packerOk h b)

@[simp] theorem packFlush_pkN (s : State) : (packFlush s).pkN = 0 := rfl

@[simp] theorem packFlush_pkBits (s : State) : (packFlush s).pkBits = 0 := rfl

/-- The invariant's clauses as propositions about the fields. -/
theorem inv_iff {s : State} : s.Inv ↔
    s.pkBits.toNat < 2 ^ s.pkN.val ∧ (s.errcode = .noError ↔ s.st ≠ .error) ∧
    (s.fill ≠ 0 → s.st = .active) ∧
    (s.anyblk = false → s.prevDC = 0 ∧ s.pkN = 0 ∧ s.byteCount = 0 ∧ s.blockCount = 0) ∧
    (s.st = .done → s.anyblk = true ∧ s.pkN = 0) ∧ (s.st = .idle → s.anyblk = false) ∧
    stuffedBytes s.outq = true := by
  simp only [State.Inv, packerOk, errorOk, fillOk, noBlockOk, doneOk, idleOk, decide_eq_true_eq]

/-- A command, or an illegal word, keeps the invariant: a raised error abandons the block begun, and the
two that write bits push stuffed bytes. -/
theorem CommandEffect.inv {s t : State} {o : Option Instr} (h : CommandEffect s o t) (hs : s.Inv) :
    t.Inv := by
  obtain ⟨hpk, herrc, hfill, hblk, hdone, hidle, hout⟩ := inv_iff.mp hs
  cases h with
  | started => simp [inv_iff, hout]
  | nop => exact hs
  | ignored => exact hs
  | raised _ _ _ he => exact inv_iff.mpr ⟨hpk, by simp [he], by simp, hblk, by simp, by simp, hout⟩
  | stored k d hst =>
    exact inv_iff.mpr ⟨hpk, herrc, fun _ => hst, hblk, hdone, hidle, hout⟩
  | encoded k d dc bits hst =>
    have hf := packBits_frame (storeElement k d s) bits
    have hst' : (packBits (storeElement k d s) bits).st = .active := (samePackerFrame_st hf).trans hst
    have herrc' := (samePackerFrame_errcode hf).trans (herrc.mpr (by simp [hst]))
    obtain ⟨pushed, hp, ho, -⟩ := packBits_pushes (storeElement k d s) bits
    have hpk' := packerOk_iff.mp
      (packBits_packerOk (s := storeElement k d s) (packerOk_iff.mpr hpk) bits)
    refine inv_iff.mpr ⟨hpk', by simp [hst', herrc'], by simp, by simp, by simp [hst'],
      by simp [hst'], ?_⟩
    rw [closeBlock_outq, ho]
    exact stuffedBytes_append hout hp
  | flushed hst hfill0 hany =>
    have hf := packFlush_frame s
    obtain ⟨pushed, hp, ho, -⟩ := packFlush_pushes s
    have herrc' := (samePackerFrame_errcode hf).trans (herrc.mpr (by simp [hst]))
    refine inv_iff.mpr ⟨by simp, by simp [herrc'], by simp [samePackerFrame_fill hf, hfill0],
      by simp [samePackerFrame_anyblk hf, hany], by simp [samePackerFrame_anyblk hf, hany], by simp, ?_⟩
    simp only [ho]
    exact stuffedBytes_append hout hp

/-- Settles O54, by the things a step can do and the things the accepted word can do. -/
theorem invariantKeptByStep : Obligations.InvariantKeptByStep := by
  intro s t hs hstep
  cases step_effect hstep with
  | reset => simp [inv_iff, stuffedBytes]
  | @accepted w words hq _ acts =>
    have hu : ({ s with cmdq := words, acts := acts } : State).Inv := hs
    exact (acceptState_effect w _).inv hu
  | passed => exact hs
  | delivered hout =>
    obtain ⟨hpk, herrc, hfill, hblk, hdone, hidle, hstuffed⟩ := inv_iff.mp hs
    exact inv_iff.mpr ⟨hpk, herrc, hfill, hblk, hdone, hidle, stuffedBytes_tail (hout ▸ hstuffed)⟩

/-- Settles O55: the reset column meets each clause. -/
theorem invariantAtReset : Obligations.InvariantAtReset := by
  unfold Obligations.InvariantAtReset
  simp [inv_iff, State.reset, stuffedBytes]

end Sys2Proof.Machine
end

section
/-!
Elements of `buf` that the current block has not written are never observed (10_state.md R36, R331):
every operation takes two states that differ only there to two such states.
-/

namespace Sys2Proof.Machine

/-- The two states differ only in elements of `buf` that the current block has not written. -/
def SameWritten (s s' : State) : Prop :=
  s' = { s with buf := s'.buf } ∧ ∀ j : Fin 64, j < s.fill → s'.buf[j] = s.buf[j]

/-- An operation that neither reads nor writes `buf` and does not raise `fill`. -/
def IgnoresBuf (f : State → State) : Prop :=
  ∀ (s : State) (buf : Vector Data 64), f { s with buf := buf } = { f s with buf := buf } ∧
    (f s).fill ≤ s.fill

theorem SameWritten.refl (s : State) : SameWritten s s := ⟨rfl, fun _ _ => rfl⟩

theorem SameWritten.map {f : State → State} (hf : IgnoresBuf f) {s s' : State} (h : SameWritten s s') :
    SameWritten (f s) (f s') := by
  obtain ⟨heq, hbuf⟩ := h
  have hkeep : (f s).buf = s.buf := by
    have hself := congrArg State.buf (hf s s.buf).1
    exact hself
  have hf' : f s' = { f s with buf := s'.buf } := by rw [heq]; exact (hf s s'.buf).1
  rw [hf']
  refine ⟨rfl, fun j hj => ?_⟩
  simp only [hkeep]
  exact hbuf j (hj.trans_le (hf s s.buf).2)

theorem ignoresBuf_raiseError (e : ErrorCode) : IgnoresBuf (raiseError e) :=
  fun _ _ => ⟨rfl, Fin.zero_le _⟩

theorem ignoresBuf_doStart : IgnoresBuf doStart := fun _ _ => ⟨rfl, Fin.zero_le _⟩

theorem ignoresBuf_resetCore : IgnoresBuf resetCore := fun _ _ => ⟨rfl, Fin.zero_le _⟩

theorem ignoresBuf_passTime : IgnoresBuf passTime := fun _ _ => ⟨rfl, le_rfl⟩

theorem ignoresBuf_afterCommand : IgnoresBuf afterCommand := fun _ _ => ⟨rfl, le_rfl⟩

theorem ignoresBuf_keepAct (a : HostAct) : IgnoresBuf (keepAct a) := fun _ _ => ⟨rfl, le_rfl⟩

theorem ignoresBuf_readTurn (addr : BitVec 3) : IgnoresBuf (readTurn addr) := fun _ _ => ⟨rfl, le_rfl⟩

theorem ignoresBuf_deliverByte : IgnoresBuf deliverByte := fun s buf => by
  obtain ⟨hout, h⟩ | ⟨b, rest, hout, h⟩ := deliverByte_cases s
  · rw [h, deliverByte_nil (s := { s with buf := buf }) hout]
    exact ⟨rfl, le_rfl⟩
  · rw [h, deliverByte_cons (s := { s with buf := buf }) hout]
    exact ⟨rfl, le_rfl⟩

theorem ignoresBuf_packFlush : IgnoresBuf packFlush := fun s _ => by
  refine ⟨?_, (samePackerFrame_fill (packFlush_frame s)).le⟩
  unfold packFlush
  split <;> rfl

theorem ignoresBuf_doFlush : IgnoresBuf doFlush := fun s buf => by
  obtain ⟨hpack, hle⟩ := ignoresBuf_packFlush s buf
  unfold doFlush
  simp only
  split_ifs
  · exact ignoresBuf_raiseError _ s buf
  · exact ignoresBuf_raiseError _ s buf
  · exact ignoresBuf_raiseError _ s buf
  · exact ⟨by rw [hpack], hle⟩

section
variable {s s' : State} (h : SameWritten s s')
include h

theorem SameWritten.st_eq : s'.st = s.st := by rw [h.1]

theorem SameWritten.fill_eq : s'.fill = s.fill := by rw [h.1]

theorem SameWritten.bmode_eq : s'.bmode = s.bmode := by rw [h.1]

theorem SameWritten.acts_eq : s'.acts = s.acts := by rw [h.1]

theorem SameWritten.cmdq_eq : s'.cmdq = s.cmdq := by rw [h.1]

theorem SameWritten.unlessError {t t' : State} (ht : SameWritten t t') :
    SameWritten (unlessError s t) (unlessError s' t') := by
  unfold Machine.unlessError
  rw [h.st_eq]
  split
  · exact h
  · exact ht

/-- After the write of element `fill` the buffers agree up to and with it. -/
theorem SameWritten.storeElement_buf (k : BlockKind) (d : Data) (j : Fin 64) (hj : j ≤ s.fill) :
    (storeElement k d s').buf[j] = (storeElement k d s).buf[j] := by
  simp only [Machine.storeElement_buf, Fin.getElem_fin, Vector.getElem_set, h.fill_eq]
  split
  · rfl
  · next hne => exact h.2 j (lt_of_le_of_ne hj fun he => hne (congrArg Fin.val he.symm))

theorem SameWritten.storeElement_eq (k : BlockKind) (d : Data) :
    storeElement k d s' = { storeElement k d s with buf := (storeElement k d s').buf } := by
  rw [h.1]; rfl

/-- The block's last element leaves nothing unwritten: the stored blocks are equal. -/
theorem SameWritten.storeElement_last (k : BlockKind) (d : Data) (hfill : s.fill = 63) :
    storeElement k d s' = storeElement k d s := by
  have hle (j : Fin 64) : j ≤ s.fill := by rw [hfill]; exact Fin.le_last j
  have hbuf : (storeElement k d s').buf = (storeElement k d s).buf :=
    Vector.ext fun j hj => h.storeElement_buf k d ⟨j, hj⟩ (hle _)
  rw [h.storeElement_eq, hbuf]

theorem SameWritten.storeNext (k : BlockKind) (d : Data) (hfill : s.fill ≠ 63) :
    SameWritten { storeElement k d s with fill := s.fill + 1 }
      { storeElement k d s' with fill := s.fill + 1 } := by
  refine ⟨by rw [h.storeElement_eq], fun j hj => h.storeElement_buf k d j ?_⟩
  have hsucc : (s.fill + 1).val = s.fill.val + 1 :=
    Fin.val_add_one_of_lt (Fin.lt_last_iff_ne_last.mpr hfill)
  have hlt : j.val < (s.fill + 1).val := hj
  exact Fin.le_def.mpr (by omega)

theorem SameWritten.doWrite (cfg : Config) (k : BlockKind) (d : Data) :
    SameWritten (doWrite cfg k d s) (doWrite cfg k d s') := by
  have raised (e : ErrorCode) := h.map (ignoresBuf_raiseError e)
  unfold Machine.doWrite
  rw [h.st_eq, h.fill_eq, h.bmode_eq]
  split_ifs with hst hmix hlast
  · exact raised _
  · exact raised _
  · rw [h.storeElement_last k d hlast]
    split
    · exact raised _
    · exact .refl _
  · exact h.storeNext k d hlast

theorem SameWritten.nextState (i : Instr) : SameWritten (nextState i s) (nextState i s') := by
  cases i with
  | nop => exact h
  | start => exact h.map ignoresBuf_doStart
  | sample d => exact h.unlessError (h.doWrite _ _ d)
  | coef d => exact h.unlessError (h.doWrite _ _ d)
  | flush => exact h.unlessError (h.map ignoresBuf_doFlush)

theorem SameWritten.acceptState (w : Word) : SameWritten (acceptState w s) (acceptState w s') := by
  unfold Machine.acceptState
  split
  · exact h.nextState _
  · exact h.unlessError (h.map (ignoresBuf_raiseError _))

theorem SameWritten.withCmdq (words : List Word) :
    SameWritten { s with cmdq := words } { s' with cmdq := words } := ⟨by rw [h.1], h.2⟩

theorem SameWritten.withActs (acts : List HostAct) :
    SameWritten { s with acts := acts } { s' with acts := acts } := ⟨by rw [h.1], h.2⟩

end

/-- Both outcomes are next states, and those differ only in unwritten elements of `buf`. -/
def SameWrittenNext (o o' : Host.Outcome State Fault Refusal) : Prop :=
  ∃ t t', o = .next t ∧ o' = .next t' ∧ SameWritten t t'

section
variable {s s' : State} (h : SameWritten s s')
include h

theorem SameWritten.next : SameWrittenNext (.next s) (.next s') := ⟨s, s', rfl, rfl, h⟩

theorem SameWritten.passTime : SameWritten (passTime s) (passTime s') := h.map ignoresBuf_passTime

theorem SameWritten.commandTurn : SameWrittenNext (commandTurn s) (commandTurn s') := by
  have hready : cmdReadyOut false s' = cmdReadyOut false s := by rw [h.1]; rfl
  unfold Machine.commandTurn
  rw [h.cmdq_eq, hready]
  split
  · exact h.passTime.next
  split
  · rw [acceptWord_eq_next, acceptWord_eq_next]
    exact (((h.withCmdq _).acceptState _).map ignoresBuf_afterCommand).next
  · exact h.passTime.next

theorem SameWritten.hostTurn (a : HostAct) : SameWrittenNext (hostTurn a s) (hostTurn a s') := by
  have hvalid : outValidOut false s' = outValidOut false s := by rw [h.1]; rfl
  have hdeliver := h.map ignoresBuf_deliverByte
  have hread (addr : BitVec 3) := h.map (ignoresBuf_readTurn addr)
  cases a with
  | tryCommand => exact h.commandTurn
  | sendCommand =>
    simp only [Machine.hostTurn, hvalid]
    split
    · exact (hdeliver.map (ignoresBuf_keepAct _)).passTime.next
    · exact h.commandTurn
  | takeByte => exact hdeliver.passTime.next
  | readReg addr => exact (hread addr).next
  | drain =>
    simp only [Machine.hostTurn, hvalid]
    split
    · exact (hdeliver.map (ignoresBuf_keepAct _)).passTime.next
    · exact h.passTime.next
  | waitIdle =>
    have hrd : (readTurn 0 s').rdData = (readTurn 0 s).rdData := by rw [(hread 0).1]
    simp only [Machine.hostTurn, hrd]
    split
    · exact ((hread 0).map (ignoresBuf_keepAct _)).next
    · exact (hread 0).next
  | reset => exact (h.map ignoresBuf_resetCore).passTime.next

theorem SameWritten.step : SameWrittenNext (step s) (step s') := by
  cases hacts : s.acts with
  | nil =>
    rw [step_of_no_acts hacts, step_of_no_acts (h.acts_eq.trans hacts)]
    exact h.commandTurn
  | cons a rest =>
    rw [step_of_act hacts, step_of_act (h.acts_eq.trans hacts)]
    exact (h.withActs rest).hostTurn a

end

/-- Settles O56: the step, like every operation it is made of, keeps the relation. -/
theorem unwrittenBufferUnobservable : Obligations.UnwrittenBufferUnobservable := by
  intro s s' t t' heq hbuf ht ht'
  obtain ⟨u, u', hu, hu', hsame⟩ := SameWritten.step ⟨heq, hbuf⟩
  obtain rfl : t = u := by simpa [ht] using hu
  obtain rfl : t' = u' := by simpa [ht'] using hu'
  exact hsame

end Sys2Proof.Machine
end

section
/-!
What the host reads of the core: the register map, its values after reset, the edge of reset and BUSY
(10_state.md R43 to R51, 70_reset_and_hazards.md R330).
-/

namespace Sys2Proof.Machine

theorem readPort_quiescent (cfg : Config) {s : State} (h : busy s = false) (addr : BitVec 3) :
    readPort cfg s addr = exactReg cfg s addr := by
  simp [readPort, h]

/-- A busy core's STATUS shows BUSY, whatever the draw (R51, R67). -/
theorem readPort_busy (cfg : Config) {s : State} (h : busy s = true) :
    (readPort cfg s 0).getLsbD 2 = true := by
  simp [readPort, h]

theorem busy_eq_false_iff {s : State} : busy s = false ↔ s.outq = [] ∧ s.work = 0 := by
  simp [busy]

theorem busy_of_outq {s : State} (h : s.outq ≠ []) : busy s = true := by
  simp [busy, h]

/-- STATUS as the sum of its fields (R44). -/
theorem statusWord_toNat (b : Bool) (s : State) :
    (statusWord b s).toNat = s.st.code.toNat + 4 * b.toNat + 16 * s.errcode.code.toNat +
      256 * s.fill.val + 16384 * s.bmode.code.toNat + 32768 * s.anyblk.toNat := by
  have h : (statusWord b s).toNat =
      (0#16 ++ BitVec.ofBool s.anyblk ++ s.bmode.code ++ BitVec.ofNat 6 s.fill.val ++
        s.errcode.code ++ 0#1 ++ BitVec.ofBool b ++ s.st.code).toNat := rfl
  have hfill : (BitVec.ofNat 6 s.fill.val).toNat = s.fill.val := Nat.mod_eq_of_lt s.fill.isLt
  rw [h]
  simp only [append_toNat, hfill, BitVec.toNat_ofBool, BitVec.toNat_ofNat]
  omega

/-- PACKER as the sum of its fields (R49). -/
theorem packerWord_toNat (s : State) : (packerWord s).toNat = s.pkN.val + 256 * s.pkBits.toNat := by
  have h : (packerWord s).toNat =
      (0#17 ++ s.pkBits ++ 0#5 ++ BitVec.ofNat 3 s.pkN.val).toNat := rfl
  have hN : (BitVec.ofNat 3 s.pkN.val).toNat = s.pkN.val := Nat.mod_eq_of_lt s.pkN.isLt
  rw [h]
  simp only [append_toNat, hN, BitVec.toNat_ofNat]
  omega

theorem extractLsb'_toNat_eq {n : Nat} (w : BitVec n) (lo len : Nat) :
    (w.extractLsb' lo len).toNat = w.toNat / 2 ^ lo % 2 ^ len := by
  rw [BitVec.extractLsb'_toNat, Nat.shiftRight_eq_div_pow]

theorem getLsbD_eq_decide {n : Nat} (w : BitVec n) (i : Nat) :
    w.getLsbD i = decide (w.toNat / 2 ^ i % 2 = 1) := by
  rw [← BitVec.testBit_toNat, Nat.testBit_eq_decide_div_mod_eq]

/-- The fields of STATUS, from its least significant bit (R44). -/
theorem statusWord_fields (b : Bool) (s : State) :
    (statusWord b s).extractLsb' 0 2 = s.st.code ∧ (statusWord b s).getLsbD 2 = b ∧
    (statusWord b s).getLsbD 3 = false ∧ (statusWord b s).extractLsb' 4 4 = s.errcode.code ∧
    ((statusWord b s).extractLsb' 8 6).toNat = s.fill.val ∧
    (statusWord b s).extractLsb' 14 1 = s.bmode.code ∧ (statusWord b s).getLsbD 15 = s.anyblk ∧
    (statusWord b s).extractLsb' 16 16 = 0 := by
  have hst := s.st.code.isLt
  have herr := s.errcode.code.isLt
  have hfill := s.fill.isLt
  have hmode := s.bmode.code.isLt
  have hb := b.toNat_lt
  have hany := s.anyblk.toNat_lt
  have hbool (c : Bool) (n : Nat) (h : n = c.toNat) : decide (n = 1) = c := by cases c <;> simp [h]
  simp only [← BitVec.toNat_inj, extractLsb'_toNat_eq, getLsbD_eq_decide, statusWord_toNat]
  refine ⟨by omega, hbool _ _ (by omega), hbool _ _ ?_, by omega, by omega, by omega,
    hbool _ _ (by omega), ?_⟩
  · rw [Bool.toNat_false]
    omega
  · change _ = 0
    omega

/-- Settles O44, from the layout of STATUS. -/
theorem statusRegisterFields : Obligations.StatusRegisterFields := by
  refine ⟨statusWord_fields, ?_, ?_, by decide, by decide, by decide, by decide⟩
  · intro s h
    exact readPort_quiescent _ h 0
  · intro s h
    exact readPort_busy _ h

theorem readPort_reset (addr : BitVec 3) :
    readPort Config.core State.reset addr = if addr = 5 then 0x4A504701#32 else 0 := by
  revert addr
  decide

/-- Settles O45, register by register. -/
theorem readRegisterMap : Obligations.ReadRegisterMap := by
  refine ⟨?_, ?_, readPort_reset, ?_⟩
  · intro s h
    simp only [readPort_quiescent _ h]
    exact ⟨rfl, rfl, rfl, BitVec.toInt_signExtend_of_le (by decide), packerWord_toNat s, rfl, rfl, rfl⟩
  · intro s h
    exact readPort_busy _ (busy_of_outq h)
  · intro s addr rest h
    rw [step_of_act h]
    rfl

/-- Settles O50: the turn is `resetCore` and the end of the step, after which the core is quiescent. -/
theorem resetEdge : Obligations.ResetEdge := by
  intro s rest h
  have hquiet : busy (passTime (resetCore { s with acts := rest })) = false :=
    busy_eq_false_iff.mpr ⟨rfl, rfl⟩
  refine ⟨passTime (resetCore { s with acts := rest }), by rw [step_of_act h]; rfl, rfl, ?_, ?_, rfl,
    rfl, rfl, rfl⟩
  · rw [readPort_quiescent _ hquiet]
    exact (by decide : statusWord false State.reset = 0)
  · rw [readPort_quiescent _ hquiet]
    rfl

/-- A step in which nothing is offered and the host does nothing only passes time. -/
theorem step_idle {s : State} (hacts : s.acts = []) (hcmdq : s.cmdq = []) :
    step s = .next (passTime s) := by
  rw [step_of_no_acts hacts]
  unfold commandTurn
  rw [hcmdq]

theorem run_succ_of_next {s t : State} (h : step s = .next t) (k : Nat) :
    Host.Core.run core (k + 1) s = Host.Core.run core k t := by
  have hcore : core.step s = .next t := h
  simp [Host.Core.run, hcore]

/-- Settles O47, by induction on the internal work left. -/
theorem busyClearsWithoutCommands : Obligations.BusyClearsWithoutCommands := by
  intro s hout hacts hcmdq
  induction hwork : s.work generalizing s with
  | zero => exact ⟨0, s, rfl, busy_eq_false_iff.mpr ⟨hout, hwork⟩, rfl⟩
  | succ n ih =>
    obtain ⟨k, t, hrun, hquiet, heq⟩ := ih (passTime s) hout hacts hcmdq (by simp [hwork])
    exact ⟨k + 1, t, (run_succ_of_next (step_idle hacts hcmdq) k).trans hrun, hquiet, heq⟩

end Sys2Proof.Machine
end

section
/-!
The three channels over whole steps: what a delivery and a quiescent step leave as it was, and when the
next word is accepted (20_memory.md R62 to R68).
-/

namespace Sys2Proof.Machine

theorem Pushes.outq_prefix {s t : State} (h : Pushes s t) : s.outq <+: t.outq := by
  obtain ⟨pushed, -, hout, -⟩ := h
  exact ⟨pushed, hout.symm⟩

/-- Whatever the command does, START included, the bytes that waited before it still wait, in front of
any new ones. -/
theorem CommandEffect.outq_prefix {s t : State} {o : Option Instr} (h : CommandEffect s o t) :
    s.outq <+: t.outq := by
  cases h with
  | encoded k d _ bits => exact (packBits_pushes (storeElement k d s) bits).outq_prefix
  | flushed => exact (packFlush_pushes s).outq_prefix
  | _ => exact List.prefix_rfl

@[simp] theorem acceptState_cmdq (w : Word) (s : State) : (acceptState w s).cmdq = s.cmdq := by
  rw [(acceptState_effect w s).hostFrame]

@[simp] theorem acceptState_rxBytes (w : Word) (s : State) : (acceptState w s).rxBytes = s.rxBytes := by
  rw [(acceptState_effect w s).hostFrame]

/-- Settles O52, by the things a step can do: an accepted word leaves the bytes received and adds to the
waiting ones at the end, and a delivery moves the first waiting byte and nothing else. -/
theorem bytesDeliveredOnceInOrder : Obligations.BytesDeliveredOnceInOrder := by
  intro s t hstep hreset
  cases step_effect hstep with
  | reset hact => exact absurd (by rw [hact]; rfl) hreset
  | @accepted w words _ _ acts =>
    have hout := (acceptState_effect w { s with cmdq := words, acts := acts }).outq_prefix
    rw [afterCommand_rxBytes, acceptState_rxBytes]
    exact ⟨(List.prefix_append_right_inj _).mpr hout, .inl rfl⟩
  | passed => exact ⟨List.prefix_rfl, .inl rfl⟩
  | @delivered b rest hout =>
    refine ⟨?_, .inr ⟨b, hout, rfl, rfl, rfl, rfl, rfl, rfl, rfl, rfl, rfl⟩⟩
    simp [hout]

/-- Settles O46: a quiescent core has no byte to deliver and no work left, so a step that accepts nothing
only passes time. -/
theorem quiescenceIsStable : Obligations.QuiescenceIsStable := by
  intro s t hquiet hstep hcmdq hreset
  obtain ⟨hout, hwork⟩ := busy_eq_false_iff.mp hquiet
  cases step_effect hstep with
  | reset hact => exact absurd (by rw [hact]; rfl) hreset
  | @accepted w words hq _ acts =>
    rw [afterCommand_cmdq, acceptState_cmdq, hq] at hcmdq
    exact absurd hcmdq.symm (List.cons_ne_self w words)
  | passed acts rd =>
    have hquiet' : busy (passTime { s with acts := acts, rdData := rd }) = false :=
      busy_eq_false_iff.mpr ⟨hout, by simp [hwork]⟩
    refine ⟨hquiet', fun addr => ?_⟩
    rw [readPort_quiescent _ hquiet, readPort_quiescent _ hquiet']
    rfl
  | delivered hcons => simp [hout] at hcons

/-- The step is the command channel's turn: the host does nothing else, tries a command, or sends one
with no output waiting (R101, R343). -/
def IsCommandTurn (s : State) : Prop :=
  s.acts = [] ∨ s.acts.head? = some .tryCommand ∨ (s.acts.head? = some .sendCommand ∧ s.outq = [])

theorem step_of_isCommandTurn {s : State} (h : IsCommandTurn s) :
    step s = commandTurn { s with acts := s.acts.tail } := by
  cases hacts : s.acts with
  | nil =>
    rw [step_of_no_acts hacts, List.tail_nil, ← hacts]
  | cons a rest =>
    rw [step_of_act hacts]
    obtain hnil | htry | ⟨hsend, hout⟩ := h
    · simp [hacts] at hnil
    · obtain rfl : a = .tryCommand := by simpa [hacts] using htry
      rfl
    · obtain rfl : a = .sendCommand := by simpa [hacts] using hsend
      simp [hostTurn, outValidOut, hout]

@[simp] theorem deliverByte_cmdq (s : State) : (deliverByte s).cmdq = s.cmdq := by
  obtain ⟨-, h⟩ | ⟨b, rest, -, h⟩ := deliverByte_cases s <;> rw [h]

/-- Outside the command channel's turn what the host offers stays offered. -/
theorem step_cmdq_of_not_isCommandTurn {s t : State} (h : ¬ IsCommandTurn s)
    (hstep : step s = .next t) : t.cmdq = s.cmdq := by
  cases hacts : s.acts with
  | nil => exact absurd (.inl hacts) h
  | cons a rest =>
    rw [step_of_act hacts] at hstep
    cases a with
    | tryCommand => exact absurd (.inr (.inl (by simp [hacts]))) h
    | sendCommand =>
      have hout : s.outq ≠ [] := fun hout => h (.inr (.inr ⟨by simp [hacts], hout⟩))
      simp only [hostTurn] at hstep
      split at hstep
      · cases hstep
        simp
      · next hvalid => simp [outValidOut, hout] at hvalid
    | takeByte =>
      cases hstep
      simp
    | readReg addr =>
      cases hstep
      rfl
    | drain =>
      simp only [hostTurn] at hstep
      split at hstep <;> cases hstep
      · simp
      · rfl
    | waitIdle =>
      simp only [hostTurn] at hstep
      split at hstep <;> cases hstep <;> rfl
    | reset =>
      cases hstep
      rfl

/-- In its turn, a core that is ready takes the word offered first. -/
theorem commandTurn_of_ready {s : State} {w : Word} {words : List Word} (hq : s.cmdq = w :: words)
    (hready : s.outq = [] ∨ s.ready = true) :
    commandTurn s = .next (afterCommand (acceptState w { s with cmdq := words })) := by
  have hcmd : cmdReadyOut false s = true := by simpa [cmdReadyOut] using hready
  unfold commandTurn
  rw [hq]
  simp [hcmd, acceptWord_eq_next]

/-- The command channel's turn of a ready core is the accepted word's effect. -/
theorem step_of_accepted {s : State} {w : Word} {words : List Word} (hq : s.cmdq = w :: words)
    (hturn : IsCommandTurn s) (hready : s.outq = [] ∨ s.ready = true) :
    step s = .next (afterCommand (acceptState w { s with cmdq := words, acts := s.acts.tail })) := by
  rw [step_of_isCommandTurn hturn]
  exact commandTurn_of_ready (s := { s with acts := s.acts.tail }) hq hready

/-- When the word offered first is accepted: acceptance is a fact of the turn and of the core's
readiness, neither of which looks at the word (R63). -/
theorem step_accepts_iff {s t : State} {w : Word} {words : List Word} (hq : s.cmdq = w :: words)
    (hstep : step s = .next t) :
    t.cmdq = words ↔ IsCommandTurn s ∧ (s.outq = [] ∨ s.ready = true) := by
  have hkept {l : List Word} (h : l = s.cmdq) : l ≠ words := by
    rw [h, hq]
    exact List.cons_ne_self w words
  by_cases hturn : IsCommandTurn s
  · by_cases hready : s.outq = [] ∨ s.ready = true
    · rw [step_of_accepted hq hturn hready] at hstep
      cases hstep
      exact iff_of_true (by simp) ⟨hturn, hready⟩
    · rw [step_of_isCommandTurn hturn] at hstep
      obtain ⟨-, -, -, hready', -⟩ | ⟨-, hpass⟩ := commandTurn_cases { s with acts := s.acts.tail }
      · exact absurd hready' hready
      · rw [hpass] at hstep
        cases hstep
        exact iff_of_false (hkept rfl) fun h => hready h.2
  · exact iff_of_false (hkept (step_cmdq_of_not_isCommandTurn hturn hstep)) fun h => hturn h.1

/-- Settles O51: the condition under which the word is accepted is the same for both words. -/
theorem acceptanceIgnoresTheWord : Obligations.AcceptanceIgnoresTheWord := by
  intro s w v rest t u ht hu
  have haccept := step_accepts_iff rfl ht
  exact ⟨haccept.trans (step_accepts_iff rfl hu).symm,
    fun hacts hout => haccept.mpr ⟨.inl hacts, .inl hout⟩⟩

theorem acceptState_of_ok {w : Word} {i : Instr} (h : decode w = .ok i) (s : State) :
    acceptState w s = nextState i s := by
  simp [acceptState, h]

theorem acceptState_of_error {w : Word} {why : IllegalWord} (h : decode w = .error why) (s : State) :
    acceptState w s = takeIllegal s := by
  simp [acceptState, h]

/-- Settles O48: in each of the three turns `u` is the state without the word and the act, and the step
is the accepted word's effect there. -/
theorem stepRunsAcceptedCommand : Obligations.StepRunsAcceptedCommand := by
  intro s u w words hq hready hcase
  obtain ⟨hturn, rfl⟩ : IsCommandTurn s ∧ u = { s with cmdq := words, acts := s.acts.tail } := by
    obtain ⟨hacts, rfl⟩ | ⟨rest, hacts, rfl⟩ | ⟨rest, hout, hacts, rfl⟩ := hcase
    · exact ⟨.inl hacts, by rw [hacts, List.tail_nil, ← hacts]⟩
    · exact ⟨.inr (.inl (by simp [hacts])), by rw [hacts]; rfl⟩
    · exact ⟨.inr (.inr ⟨by simp [hacts], hout⟩), by rw [hacts]; rfl⟩
  have hstep := step_of_accepted hq hturn hready
  constructor
  · intro i t hdec hexec
    rw [hstep, acceptState_of_ok hdec, exec_next_iff.mp hexec]
    rfl
  · intro why hdec
    rw [hstep, acceptState_of_error hdec]

end Sys2Proof.Machine
end

section
/-!
The fields of a command word, and how a word is read: one lemma for each way, and the decoder's answer
as a relation with a constructor for each (30_encoding.md R90 to R98; 60_exceptions.md R302).
-/

namespace Sys2Proof.Machine

theorem commandWord_toNat (opc : BitVec 4) (d : Data) :
    (commandWord opc d).toNat = opc.toNat * 2 ^ 28 + d.toNat := by
  unfold commandWord
  rw [append_toNat, append_toNat, BitVec.ofNat_eq_ofNat, BitVec.toNat_zero]
  omega

@[simp] theorem opcField_commandWord (opc : BitVec 4) (d : Data) : opcField (commandWord opc d) = opc := by
  unfold opcField
  rw [← BitVec.toNat_inj, extractLsb'_toNat_eq, commandWord_toNat]
  omega

@[simp] theorem rsvdField_commandWord (opc : BitVec 4) (d : Data) : rsvdField (commandWord opc d) = 0 := by
  unfold rsvdField
  rw [← BitVec.toNat_inj, extractLsb'_toNat_eq, commandWord_toNat, BitVec.ofNat_eq_ofNat,
    BitVec.toNat_zero]
  omega

@[simp] theorem dataField_commandWord (opc : BitVec 4) (d : Data) : dataField (commandWord opc d) = d := by
  unfold dataField
  rw [← BitVec.toNat_inj, extractLsb'_toNat_eq, commandWord_toNat]
  omega

theorem decode_of_reservedOpcode {w : Word} (h : 0x5 ≤ opcField w) :
    decode w = .error .reservedOpcode := by
  unfold decode
  rw [if_pos h]

theorem decode_of_reservedBits {w : Word} (h : ¬ 0x5 ≤ opcField w) (hr : rsvdField w ≠ 0) :
    decode w = .error .reservedBits := by
  unfold decode
  rw [if_neg h, if_pos hr]

theorem decode_of_rsvdField_zero {w : Word} (h : ¬ 0x5 ≤ opcField w) (hr : rsvdField w = 0) :
    decode w = opcodeMap (opcField w) (dataField w) := by
  unfold decode
  rw [if_neg h, if_neg (not_not.mpr hr)]

/-- No operand is lost between the encoder and the decoder (R90, R91). -/
theorem decode_encode (i : Instr) : decode (encode i) = .ok i := by
  have hmap {opc : BitVec 4} (h : ¬ 0x5 ≤ opc) (d : Data) :
      decode (commandWord opc d) = opcodeMap opc d := by
    rw [decode_of_rsvdField_zero (by simpa using h) (by simp), opcField_commandWord,
      dataField_commandWord]
  cases i <;> exact hmap (by decide) _

/-- Settles O1, from the fields of a command word. -/
theorem decodeAndEncodeAgree : Obligations.DecodeAndEncodeAgree :=
  ⟨decode_encode, fun _ _ => encode_of_decode⟩

/-- The opcodes of the commands without an operand: NOP, START and FLUSH (R91, R95). -/
def PlainOpcode (opc : BitVec 4) : Prop := opc = 0x0 ∨ opc = 0x1 ∨ opc = 0x4

/-- The opcodes of the commands that carry DATA: SAMPLE and COEF (R91). -/
def ElementOpcode (opc : BitVec 4) : Prop := opc = 0x2 ∨ opc = 0x3

theorem opcode_kinds (opc : BitVec 4) : 0x5 ≤ opc ∨ PlainOpcode opc ∨ ElementOpcode opc := by
  unfold PlainOpcode ElementOpcode
  revert opc
  decide

theorem PlainOpcode.not_reserved {opc : BitVec 4} (h : PlainOpcode opc) : ¬ 0x5 ≤ opc := by
  obtain rfl | rfl | rfl := h <;> decide

theorem ElementOpcode.not_reserved {opc : BitVec 4} (h : ElementOpcode opc) : ¬ 0x5 ≤ opc := by
  obtain rfl | rfl := h <;> decide

theorem decode_of_nonzeroData {w : Word} (h : PlainOpcode (opcField w)) (hr : rsvdField w = 0)
    (hd : dataField w ≠ 0) : decode w = .error .nonzeroData := by
  rw [decode_of_rsvdField_zero h.not_reserved hr]
  obtain ho | ho | ho := h <;> rw [ho] <;> exact if_neg hd

theorem decode_of_plain {w : Word} (h : PlainOpcode (opcField w)) (hr : rsvdField w = 0)
    (hd : dataField w = 0) : ∃ i, decode w = .ok i := by
  rw [decode_of_rsvdField_zero h.not_reserved hr, hd]
  obtain ho | ho | ho := h <;> rw [ho] <;> exact ⟨_, rfl⟩

theorem decode_of_element {w : Word} (h : ElementOpcode (opcField w)) (hr : rsvdField w = 0) :
    ∃ i, decode w = .ok i := by
  rw [decode_of_rsvdField_zero h.not_reserved hr]
  obtain ho | ho := h <;> rw [ho] <;> exact ⟨_, rfl⟩

/-- The ways a word is read, each with its condition (R92, R98, R302). -/
inductive DecodeResult (w : Word) : Except IllegalWord Instr → Prop where
  | reservedOpcode (hopc : 0x5 ≤ opcField w) : DecodeResult w (.error .reservedOpcode)
  | reservedBits (hopc : ¬ 0x5 ≤ opcField w) (hr : rsvdField w ≠ 0) :
      DecodeResult w (.error .reservedBits)
  | nonzeroData (hopc : PlainOpcode (opcField w)) (hr : rsvdField w = 0) (hd : dataField w ≠ 0) :
      DecodeResult w (.error .nonzeroData)
  | plain (hopc : PlainOpcode (opcField w)) (hr : rsvdField w = 0) (hd : dataField w = 0) (i : Instr) :
      DecodeResult w (.ok i)
  | element (hopc : ElementOpcode (opcField w)) (hr : rsvdField w = 0) (i : Instr) :
      DecodeResult w (.ok i)

theorem decode_result (w : Word) : DecodeResult w (decode w) := by
  by_cases h5 : 0x5 ≤ opcField w
  · rw [decode_of_reservedOpcode h5]
    exact .reservedOpcode h5
  by_cases hr : rsvdField w = 0
  · obtain hplain | helem := (opcode_kinds (opcField w)).resolve_left h5
    · by_cases hd : dataField w = 0
      · obtain ⟨i, hi⟩ := decode_of_plain hplain hr hd
        rw [hi]
        exact .plain hplain hr hd i
      · rw [decode_of_nonzeroData hplain hr hd]
        exact .nonzeroData hplain hr hd
    · obtain ⟨i, hi⟩ := decode_of_element helem hr
      rw [hi]
      exact .element helem hr i
  · rw [decode_of_reservedBits h5 hr]
    exact .reservedBits h5 hr

theorem decodeResult_of_eq {w : Word} {r : Except IllegalWord Instr} (h : decode w = r) :
    DecodeResult w r := h ▸ decode_result w

theorem five_le_opcField_iff {w : Word} : 0x5 ≤ opcField w ↔ 5 ≤ (opcField w).toNat := BitVec.le_def

/-- Settles O3: each reason's condition makes the decoder answer it, and the answer tells the way. -/
theorem illegalWordReasons : Obligations.IllegalWordReasons := by
  intro w
  refine ⟨⟨fun h => ?_, fun h => decode_of_reservedOpcode (five_le_opcField_iff.mpr h)⟩,
    ⟨fun h => ?_, fun ⟨h5, hr⟩ => decode_of_reservedBits ?_ hr⟩,
    ⟨fun h => ?_, fun ⟨hopc, hr, hd⟩ => decode_of_nonzeroData hopc hr hd⟩⟩
  · cases decodeResult_of_eq h with
    | reservedOpcode hopc => exact five_le_opcField_iff.mp hopc
  · cases decodeResult_of_eq h with
    | reservedBits hopc hr => exact ⟨not_le.mp (mt five_le_opcField_iff.mpr hopc), hr⟩
  · exact mt five_le_opcField_iff.mp (not_le.mpr h5)
  · cases decodeResult_of_eq h with
    | nonzeroData hopc hr hd => exact ⟨hopc, hr, hd⟩

/-- The conditions of R92 on the fields of a word. -/
def LegalFields (w : Word) : Prop :=
  (PlainOpcode (opcField w) ∧ w.extractLsb' 0 28 = 0) ∨ (ElementOpcode (opcField w) ∧ rsvdField w = 0)

theorem legalWord_iff_fields {w : Word} : legalWord w = true ↔ LegalFields w := by
  simp [legalWord, LegalFields, PlainOpcode, ElementOpcode, opcField, rsvdField]

/-- Bits [27:0] are the RSVD field above the DATA field (R90). -/
theorem lowBits_eq_zero_iff {w : Word} :
    w.extractLsb' 0 28 = 0 ↔ rsvdField w = 0 ∧ dataField w = 0 := by
  unfold rsvdField dataField
  simp only [← BitVec.toNat_inj, extractLsb'_toNat_eq, BitVec.ofNat_eq_ofNat, BitVec.toNat_zero]
  omega

theorem decodes_iff_fields {w : Word} : (∃ i, decode w = .ok i) ↔ LegalFields w := by
  constructor
  · rintro ⟨i, h⟩
    cases decodeResult_of_eq h with
    | plain hopc hr hd => exact .inl ⟨hopc, lowBits_eq_zero_iff.mpr ⟨hr, hd⟩⟩
    | element hopc hr => exact .inr ⟨hopc, hr⟩
  · rintro (⟨hopc, hlow⟩ | ⟨hopc, hr⟩)
    · obtain ⟨hr, hd⟩ := lowBits_eq_zero_iff.mp hlow
      exact decode_of_plain hopc hr hd
    · exact decode_of_element hopc hr

theorem legalWord_iff_decodes {w : Word} : legalWord w = true ↔ ∃ i, decode w = .ok i :=
  legalWord_iff_fields.trans decodes_iff_fields.symm

theorem legalWord_encode (i : Instr) : legalWord (encode i) = true :=
  legalWord_iff_decodes.mpr ⟨i, decode_encode i⟩

/-- Settles O2: both tests are the conditions on the fields, and a word that does not decode is taken as
ILLEGAL. -/
theorem legalWordsDecode : Obligations.LegalWordsDecode := by
  intro w
  refine ⟨decodes_iff_fields, legalWord_iff_decodes, fun s hillegal => ?_⟩
  rw [acceptWord_eq_next]
  cases hdec : decode w with
  | ok i => simp [legalWord_iff_decodes.mpr ⟨i, hdec⟩] at hillegal
  | error why =>
    rw [acceptState_of_error hdec]
    rfl

/-- Settles O4, by running the decoder on the nine words. -/
theorem specEncodingsDecode : Obligations.SpecEncodingsDecode := by
  unfold Obligations.SpecEncodingsDecode
  decide

theorem decodeTableWord_eq_some_iff {nbits w : Nat} {i : Instr} :
    decodeTableWord nbits w = some i ↔ decode (tableWord nbits w) = .ok i := by
  unfold decodeTableWord tableWord
  cases decode (BitVec.ofNat 32 (w % 2 ^ nbits)) <;> simp

/-- Settles O49: the placed word stands first on the command channel, whose turn is next and whose core
is ready. -/
theorem fetchWordIsNextCommand : Obligations.FetchWordIsNextCommand := by
  intro s t nbits w i hdec hexec
  have hstep := step_of_accepted (s := s.withFetchWord nbits w) rfl (.inr (.inl rfl)) (.inr rfl)
  rw [hstep, acceptState_of_ok (decodeTableWord_eq_some_iff.mp hdec), ← exec_next_iff.mp hexec]
  rfl

end Sys2Proof.Machine
end

section
/-!
`DRAIN` over whole steps (30_encoding.md R101; 20_memory.md R64).
-/

namespace Sys2Proof.Machine

theorem step_drain_nil {s : State} {rest : List HostAct} (hacts : s.acts = .drain :: rest)
    (hout : s.outq = []) : step s = .next (passTime { s with acts := rest }) := by
  rw [step_of_act hacts]
  simp [hostTurn, outValidOut, hout]

/-- With a byte waiting, `DRAIN` accepts it and stays the host's act. -/
theorem step_drain_cons {s : State} {rest : List HostAct} {b : Byte} {bs : List Byte}
    (hacts : s.acts = .drain :: rest) (hout : s.outq = b :: bs) :
    step s = .next (passTime { s with outq := bs, rxBytes := s.rxBytes ++ [b] }) := by
  have hvalid : outValidOut false { s with acts := rest } = true := by simp [outValidOut, hout]
  rw [step_of_act hacts]
  simp only [hostTurn, hvalid, if_true, deliverByte_cons (s := { s with acts := rest }) hout, keepAct,
    hacts]

/-- Settles O53, by induction on the waiting bytes. -/
theorem drainDeliversAll : Obligations.DrainDeliversAll := by
  intro s rest hacts
  induction hout : s.outq generalizing s with
  | nil =>
    exact ⟨_, run_succ_of_next (step_drain_nil hacts hout) 0, by simp [passTime, hout]⟩
  | cons b bs ih =>
    obtain ⟨t, hrun, ht⟩ := ih (passTime { s with outq := bs, rxBytes := s.rxBytes ++ [b] }) hacts rfl
    refine ⟨t, (run_succ_of_next (step_drain_cons hacts hout) _).trans hrun, ht.trans ?_⟩
    simp [passTime]

end Sys2Proof.Machine
end

section
/-!
What the host sends: assembly lines, blocks and images as lists of words, and the rounding of a real
sample (30_encoding.md R99, R100; 48_host_side.md R265, R267).
-/

namespace Sys2Proof.Machine

theorem forall₂_of_mapM_eq_some {α β : Type} {f : α → Option β} {l : List α} {ys : List β}
    (h : l.mapM f = some ys) : List.Forall₂ (fun x y => f x = some y) l ys := by
  induction l generalizing ys with
  | nil =>
    obtain rfl : ys = [] := by simpa using h.symm
    exact .nil
  | cons x l ih =>
    simp only [List.mapM_cons, Option.bind_eq_bind, Option.bind_eq_some_iff, Option.pure_def,
      Option.some.injEq] at h
    obtain ⟨y, hy, zs, hzs, rfl⟩ := h
    exact .cons hy (ih hzs)

/-- What every answer of `f` meets, every member of a list of its answers meets. -/
theorem forall_mem_of_mapM {α β : Type} {f : α → Option β} {p : β → Prop} {l : List α} {ys : List β}
    (hf : ∀ x y, f x = some y → p y) (h : l.mapM f = some ys) : ∀ y ∈ ys, p y := by
  have hl := forall₂_of_mapM_eq_some h
  clear h
  induction hl with
  | nil => simp
  | cons hxy _ ih => exact List.forall_mem_cons.mpr ⟨hf _ _ hxy, ih⟩

theorem length_of_mapM {α β : Type} {f : α → Option β} {l : List α} {ys : List β}
    (h : l.mapM f = some ys) : ys.length = l.length :=
  (forall₂_of_mapM_eq_some h).length_eq.symm

theorem asmSample_legal {fracBits : Nat} {s : ℚ} {w : Word} (h : asmSample fracBits s = some w) :
    legalWord w = true := by
  obtain ⟨-, ⟨⟩⟩ := Option.ite_none_right_eq_some.mp h
  exact legalWord_encode _

theorem asmCoef_legal {c : Int} {w : Word} (h : asmCoef c = some w) : legalWord w = true := by
  obtain ⟨-, ⟨⟩⟩ := Option.ite_none_right_eq_some.mp h
  exact legalWord_encode _

theorem asmWords_legal {cfg : Config} {line : AsmLine} {words : List Word}
    (hline : ∀ w : Word, line ≠ .word w) (h : asmWords cfg line = some words) :
    ∀ w ∈ words, legalWord w = true := by
  cases line with
  | nop | start | sampleRaw | flush =>
    cases h
    exact List.forall_mem_singleton.mpr (legalWord_encode _)
  | drain | waitIdle | read =>
    cases h
    exact List.forall_mem_nil _
  | word w => exact absurd rfl (hline w)
  | sample s =>
    obtain ⟨w, hw, rfl⟩ := Option.map_eq_some_iff.mp h
    exact List.forall_mem_singleton.mpr (asmSample_legal hw)
  | coef c =>
    obtain ⟨w, hw, rfl⟩ := Option.map_eq_some_iff.mp h
    exact List.forall_mem_singleton.mpr (asmCoef_legal hw)
  | blockS samples =>
    obtain ⟨-, hws⟩ := Option.ite_none_right_eq_some.mp h
    exact forall_mem_of_mapM (fun _ _ => asmSample_legal) hws
  | blockSFill s =>
    obtain ⟨w, hw, rfl⟩ := Option.map_eq_some_iff.mp h
    exact fun v hv => List.eq_of_mem_replicate hv ▸ asmSample_legal hw
  | blockC coefs =>
    obtain ⟨-, hws⟩ := Option.ite_none_right_eq_some.mp h
    exact forall_mem_of_mapM (fun _ _ => asmCoef_legal) hws
  | blockCSparse entries =>
    obtain ⟨-, hws⟩ := Option.ite_none_right_eq_some.mp h
    exact forall_mem_of_mapM (fun _ _ => asmCoef_legal) hws

section
variable {cfg : Config} {words : List Word}

theorem blockS_length {samples : List ℚ} (h : asmWords cfg (.blockS samples) = some words) :
    words.length = 64 := by
  obtain ⟨hlen, hws⟩ := Option.ite_none_right_eq_some.mp h
  exact (length_of_mapM hws).trans hlen

theorem blockC_length {coefs : List Int} (h : asmWords cfg (.blockC coefs) = some words) :
    words.length = 64 := by
  obtain ⟨hlen, hws⟩ := Option.ite_none_right_eq_some.mp h
  exact (length_of_mapM hws).trans hlen

theorem blockCSparse_length {entries : List (Nat × Int)}
    (h : asmWords cfg (.blockCSparse entries) = some words) : words.length = 64 := by
  obtain ⟨-, hws⟩ := Option.ite_none_right_eq_some.mp h
  exact (length_of_mapM hws).trans (by simp [sparseCoefs])

theorem blockSFill_length {s : ℚ} (h : asmWords cfg (.blockSFill s) = some words) :
    words.length = 64 := by
  obtain ⟨w, -, rfl⟩ := Option.map_eq_some_iff.mp h
  exact List.length_replicate

end

/-- The word carries one element of a block (R113). -/
def IsElementWord (w : Word) : Prop := ∃ d : Data, decode w = .ok (.sample d) ∨ decode w = .ok (.coef d)

theorem IsElementWord.legal {w : Word} (h : IsElementWord w) : legalWord w = true := by
  obtain ⟨d, h | h⟩ := h <;> exact legalWord_iff_decodes.mpr ⟨_, h⟩

/-- START, element commands and FLUSH are all legal. -/
theorem framed_legal {body : List Word} (h : ∀ w ∈ body, IsElementWord w) :
    ∀ w ∈ encode .start :: body ++ [encode .flush], legalWord w = true := by
  intro w hw
  rw [List.mem_append, List.mem_cons, List.mem_singleton] at hw
  obtain (rfl | hbody) | rfl := hw
  · exact legalWord_encode _
  · exact (h w hbody).legal
  · exact legalWord_encode _

section
variable {K : Type} [Field K] [LinearOrder K] [FloorRing K] {cfg : Config}

/-- A block the host sends is 64 element commands (R265, R267). -/
theorem blockWords_elements {b : HostBlock K} {ws : List Word} (h : blockWords cfg b = some ws) :
    ws.length = 64 ∧ ∀ w ∈ ws, IsElementWord w := by
  cases b with
  | samples f =>
    obtain ⟨-, ⟨⟩⟩ := Option.ite_none_right_eq_some.mp h
    exact ⟨by simp, List.forall_mem_map.mpr fun i _ => ⟨_, .inl (decode_encode _)⟩⟩
  | coefs q =>
    obtain ⟨-, ⟨⟩⟩ := Option.ite_none_right_eq_some.mp h
    exact ⟨by simp, List.forall_mem_map.mpr fun i _ => ⟨_, .inr (decode_encode _)⟩⟩

/-- The words of some blocks, one block after another. -/
theorem blocks_elements {blocks : List (HostBlock K)} {bodies : List (List Word)}
    (h : blocks.mapM (blockWords cfg) = some bodies) :
    bodies.flatten.length = 64 * blocks.length ∧ ∀ w ∈ bodies.flatten, IsElementWord w := by
  have hbodies := forall_mem_of_mapM (fun _ _ => blockWords_elements) h
  constructor
  · have hlen : ∀ n ∈ bodies.map List.length, n = 64 :=
      List.forall_mem_map.mpr fun ws hws => (hbodies ws hws).1
    rw [List.length_flatten, List.sum_eq_card_nsmul _ 64 hlen, List.length_map, length_of_mapM h,
      smul_eq_mul, Nat.mul_comm]
  · intro w hw
    obtain ⟨ws, hws, hmem⟩ := List.mem_flatten.mp hw
    exact (hbodies ws hws).2 w hmem

theorem imageCommands_shape {width height : Nat} {blocks : List (HostBlock K)} {words : List Word}
    (h : imageCommands cfg width height blocks = some words) :
    ∃ body : List Word, words = encode .start :: body ++ [encode .flush] ∧
      blocks.length = blocksAlong width * blocksAlong height ∧ body.length = 64 * blocks.length ∧
      ∀ w ∈ body, IsElementWord w := by
  obtain ⟨hdim, hmap⟩ := Option.ite_none_left_eq_some.mp h
  obtain ⟨bodies, hbodies, rfl⟩ := Option.map_eq_some_iff.mp hmap
  push Not at hdim
  obtain ⟨hlen, helem⟩ := blocks_elements hbodies
  obtain ⟨-, -, hcount⟩ := hdim
  exact ⟨bodies.flatten, rfl, hcount, hlen, helem⟩

end

/-- Rounding half away from zero moves a number by at most a half (R14). -/
theorem abs_roundHalfAway_sub_le (x : ℝ) : |(roundHalfAway x : ℝ) - x| ≤ 1 / 2 := by
  have hround (y : ℝ) : |(⌊y + 1 / 2⌋ : ℝ) - y| ≤ 1 / 2 := by
    rw [← round_eq, abs_sub_comm]
    exact abs_sub_round y
  unfold roundHalfAway
  split
  · next hneg =>
    rw [abs_of_neg hneg, Int.cast_neg, abs_sub_comm, sub_neg_eq_add, add_comm, ← sub_neg_eq_add]
    exact hround (-x)
  · next hpos =>
    rw [abs_of_nonneg (not_lt.mp hpos)]
    exact hround x

/-- A sample in range is rounded to an integer that its operand holds unwrapped (R93, R265). -/
theorem sampleOperand_toInt {fracBits : Nat} {s : ℝ} (h : sampleInRange fracBits s = true) :
    (sampleOperand fracBits s).toInt = roundHalfAway (s * 2 ^ fracBits) := by
  obtain ⟨hlo, hhi⟩ := of_decide_eq_true h
  obtain ⟨herrLo, herrHi⟩ := abs_le.mp (abs_roundHalfAway_sub_le (s * 2 ^ fracBits))
  have hlo' : (-32769 : ℝ) < roundHalfAway (s * 2 ^ fracBits) := by linarith
  have hhi' : (roundHalfAway (s * 2 ^ fracBits) : ℝ) < 32768 := by linarith
  have hloInt : -32769 < roundHalfAway (s * 2 ^ fracBits) := by exact_mod_cast hlo'
  have hhiInt : roundHalfAway (s * 2 ^ fracBits) < 32768 := by exact_mod_cast hhi'
  exact BitVec.toInt_ofInt_eq_self (by decide) (by omega) (by omega)

/-- Settles O59, from the shape of an image, the rounding of a sample and the words of a line. -/
theorem assembledWordsAreLegal : Obligations.AssembledWordsAreLegal := by
  refine ⟨fun cfg width height blocks words h => ?_, fun fracBits s h => ?_,
    fun cfg line words hline h => ⟨asmWords_legal hline h, ?_, ?_, ?_, ?_⟩⟩
  · obtain ⟨body, hwords, hcount, hlen, helem⟩ := imageCommands_shape h
    exact ⟨body, hwords, hcount, hlen, helem, hwords ▸ framed_legal helem⟩
  · rw [sampleOperand_toInt h]
    exact abs_roundHalfAway_sub_le _
  · rintro samples rfl
    exact blockS_length h
  · rintro coefs rfl
    exact blockC_length h
  · rintro entries rfl
    exact blockCSparse_length h
  · rintro s rfl
    exact blockSFill_length h

end Sys2Proof.Machine
end

section
/-!
The commands that move an image along: NOP and the refused words of its opcode, START, and FLUSH of an
open image with its padded byte (40_commands.md R111, R112, R118; 45_bitpacker.md R245).
-/

namespace Sys2Proof.Machine

/-- With OPC = 0 only the word 0 is a command (R91, R92). -/
theorem decode_error_of_opcField_zero {w : Word} (hopc : opcField w = 0) (hw : w ≠ 0) :
    ∃ why, decode w = .error why := by
  cases hdec : decode w with
  | error why => exact ⟨why, rfl⟩
  | ok i =>
    obtain rfl := encode_of_decode hdec
    cases i with
    | nop => exact absurd rfl hw
    | _ => simp [encode] at hopc

/-- Settles O5: a word of opcode 0 other than NOP's does not decode, and is taken as ILLEGAL. -/
theorem nopHasNoEffect : Obligations.NopHasNoEffect := by
  refine ⟨fun s => exec_eq_next .nop s, by decide, fun w s hopc hw hst => ?_⟩
  obtain ⟨why, hdec⟩ := decode_error_of_opcField_zero hopc hw
  rw [acceptWord_eq_next, acceptState_of_error hdec, takeIllegal, unlessError_of_ne hst]
  rfl

/-- Right after START, STATUS reads ACTIVE and every other field 0 (R112). -/
theorem statusWord_doStart (s : State) : statusWord false (doStart s) = 0x00000001#32 := by
  rw [← BitVec.toNat_inj, statusWord_toNat]
  rfl

/-- Settles O6: the next state is `doStart`'s, and in ERROR every word but START's is ignored. -/
theorem startBeginsImage : Obligations.StartBeginsImage := by
  refine ⟨by decide, fun s => ⟨doStart s, exec_eq_next .start s, rfl, statusWord_doStart s, ?_⟩⟩
  intro w u hst haccept hu
  rw [acceptWord_eq_next] at haccept
  cases haccept
  obtain ⟨hstart, -⟩ | hsame := (acceptState_effect w s).of_error hst
  · exact eq_encode_of_toOption_decode hstart
  · exact absurd hst (by simpa [hsame] using hu)

theorem paddedByte_eq_ofNat (s : State) :
    paddedByte s = BitVec.ofNat 8 (s.pkBits.toNat * 2 ^ (8 - s.pkN.val)) := by
  have hwide : s.pkBits.toNat % 2 ^ 8 = s.pkBits.toNat := Nat.mod_eq_of_lt (by omega)
  rw [← BitVec.toNat_inj, paddedByte, BitVec.toNat_shiftLeft, BitVec.toNat_setWidth, hwide,
    Nat.shiftLeft_eq, BitVec.toNat_ofNat]

/-- At most 7 bits are pending, so the padded byte ends in a zero bit and is not 0xFF (R245). -/
theorem paddedByte_ne_ff (s : State) : paddedByte s ≠ 0xFF := by
  have heven : 2 ∣ s.pkBits.toNat * 2 ^ (8 - s.pkN.val) :=
    Dvd.dvd.mul_left (dvd_pow_self 2 (by omega)) _
  rw [paddedByte_eq_ofNat, Ne, ← BitVec.toNat_inj, BitVec.toNat_ofNat]
  change _ ≠ 255
  omega

/-- A flush pushes the padded byte alone, or nothing when no bit is pending (R245). -/
theorem packFlush_eq (s : State) :
    packFlush s = { s with
      pkN := 0, pkBits := 0
      outq := s.outq ++ (if s.pkN = 0 then [] else [paddedByte s])
      byteCount := s.byteCount + (if s.pkN = 0 then 0 else 1) } := by
  have hstuffed : stuffed (paddedByte s) = [paddedByte s] := if_neg (paddedByte_ne_ff s)
  by_cases hpk : s.pkN = 0
  · simp [packFlush, hpk]
  · simp [packFlush, hpk, emitByte, hstuffed]

/-- Settles O7: of the things a flush can do, an open image with a block is left to the last, which
flushes the packer. The padded byte is as stated whether or not the packer's invariant holds. -/
theorem flushEndsImage : Obligations.FlushEndsImage := by
  intro s _ hst hfill hblk
  have hflush : doFlush s = { packFlush s with st := .done } := by
    obtain ⟨h, -⟩ | ⟨-, h, -⟩ | ⟨-, -, h, -⟩ | ⟨-, -, -, h⟩ := doFlush_cases s
    · exact absurd hst h
    · exact absurd hfill h
    · simp [hblk] at h
    · exact h
  rw [exec_eq_next, nextState, unlessError_of_ne (by simp [hst]), hflush, packFlush_eq,
    paddedByte_eq_ofNat]

end Sys2Proof.Machine
end

section
/-!
An element written into an open image that is not its block's last (40_commands.md R113 to R115).
-/

namespace Sys2Proof.Machine

/-- In an open image SAMPLE and COEF are the write of an element of their kind (R114, R115). -/
theorem exec_elementInstr_of_active {s : State} (hst : s.st = .active) (k : BlockKind) (d : Data) :
    exec (elementInstr k d) s = .next (doWrite Config.core k d s) := by
  have hne : s.st ≠ .error := by simp [hst]
  rw [exec_eq_next]
  cases k <;> exact congrArg _ (unlessError_of_ne hne)

/-- An element of the block's kind, or the first of a block, is stored at `fill` unless it is the block's
last (R113). -/
theorem exec_elementInstr_stores {s : State} {k : BlockKind} (d : Data) (hst : s.st = .active)
    (hkind : s.fill = 0 ∨ s.bmode = k) (hfill : s.fill ≠ 63) :
    (s.fill + 1).val = s.fill.val + 1 ∧
    exec (elementInstr k d) s = .next
      { s with buf := s.buf.set s.fill.val d s.fill.isLt, bmode := k, fill := s.fill + 1 } := by
  refine ⟨Fin.val_add_one_of_lt (Fin.lt_last_iff_ne_last.mpr hfill), ?_⟩
  have hafter : kindAfter k s = k := by
    by_cases h0 : s.fill = 0
    · exact kindAfter_of_zero k h0
    · exact (kindAfter_of_pos k h0).trans (hkind.resolve_left h0)
  rw [exec_elementInstr_of_active hst]
  obtain ⟨h, -⟩ | ⟨-, h0, hk, -⟩ | ⟨-, -, h, -⟩ | ⟨-, -, h, -⟩ | ⟨-, -, -, h⟩ :=
    doWrite_cases Config.core k d s
  · exact absurd hst h
  · exact absurd (hkind.resolve_left h0).symm hk
  · exact absurd h hfill
  · exact absurd h hfill
  · rw [h, storeElement, hafter]

/-- Settles O9: the kind is SAMPLE. -/
theorem sampleStoresElement : Obligations.SampleStoresElement :=
  fun d _ hst hkind hfill => exec_elementInstr_stores d hst hkind hfill

/-- Settles O10: the kind is COEF. -/
theorem coefStoresElement : Obligations.CoefStoresElement :=
  fun d _ hst hkind hfill => exec_elementInstr_stores d hst hkind hfill

end Sys2Proof.Machine
end

section
/-!
The last element of a block: the entropy check in terms of the natural-order block, then the block
encoded or refused whole (40_commands.md R116, R117; 44_entropy.md R199).
-/

namespace Sys2Proof.Machine

theorem zz_zzInv (n : Fin 64) : zz (zzInv n) = n := by
  revert n
  decide

/-- Index 0 and position 0 are each other's, and no others' (R181). -/
theorem zz_eq_zero_iff (k : Fin 64) : zz k = 0 ↔ k = 0 := by
  revert k
  decide

/-- The AC coefficients in scan order are the block's elements at the natural indices other than 0. -/
theorem mem_acList_zigzag {q : Fin 64 → Int} {v : Int} :
    v ∈ acList (zigzag q) ↔ ∃ i : Fin 64, i ≠ 0 ∧ q i = v := by
  rw [mem_acList]
  constructor
  · rintro ⟨k, hk⟩
    exact ⟨zz k.succ, mt (zz_eq_zero_iff _).mp (Fin.succ_ne_zero k), hk⟩
  · rintro ⟨i, hi, rfl⟩
    have hpos : zzInv i ≠ 0 := fun h => hi (by rw [← zz_zzInv i, (zz_eq_zero_iff _).mpr h])
    obtain ⟨k, hk⟩ := Fin.exists_succ_eq.mpr hpos
    exact ⟨k, by rw [zigzag, hk, zz_zzInv]⟩

section
variable {q : Fin 64 → Int} {p : Int}

/-- The DC difference is that of natural index 0 (R181, R195). -/
theorem dcDiff_zigzag : dcDiff (zigzag q) p = q 0 - p := rfl

theorem entropyCheck_zigzag_dcCat (hdc : 11 < cat (q 0 - p)) :
    entropyCheck (zigzag q) p = some .dcCat := if_pos hdc

theorem entropyCheck_zigzag_of_dc (hdc : cat (q 0 - p) ≤ 11) :
    entropyCheck (zigzag q) p = if ∃ i : Fin 64, i ≠ 0 ∧ 10 < cat (q i) then some .acCat else none := by
  have hany : (acList (zigzag q)).any (fun v => decide (10 < cat v)) = true ↔
      ∃ i : Fin 64, i ≠ 0 ∧ 10 < cat (q i) := by
    simp [mem_acList_zigzag]
  rw [entropyCheck, dcDiff_zigzag, if_neg (not_lt.mpr hdc)]
  simp only [hany]

theorem entropyCheck_zigzag_acCat (hdc : cat (q 0 - p) ≤ 11)
    (hac : ∃ i : Fin 64, i ≠ 0 ∧ 10 < cat (q i)) : entropyCheck (zigzag q) p = some .acCat := by
  rw [entropyCheck_zigzag_of_dc hdc, if_pos hac]

theorem entropyCheck_zigzag_passes (hdc : cat (q 0 - p) ≤ 11)
    (hac : ∀ i : Fin 64, i ≠ 0 → cat (q i) ≤ 10) : entropyCheck (zigzag q) p = none := by
  rw [entropyCheck_zigzag_of_dc hdc, if_neg]
  rintro ⟨i, hi, hlt⟩
  exact absurd hlt (not_lt.mpr (hac i hi))

end

/-- The 64th element of a block completes its buffer and leaves its kind (R113). -/
theorem storeElement_last {s : State} (hfill : s.fill = 63) (d : Data) :
    storeElement s.bmode d s = { s with buf := s.buf.set 63 d } := by
  have hkind : kindAfter s.bmode s = s.bmode := kindAfter_of_pos _ (by rw [hfill]; decide)
  simp only [storeElement, hkind, hfill]
  rfl

theorem closeBlock_packBits (dc : Int) (s : State) (bits : List Bool) :
    closeBlock dc (packBits s bits) = { packBits s bits with
      prevDC := BitVec.ofInt 16 dc, blockCount := s.blockCount + 1, anyblk := true, fill := 0 } := by
  rw [closeBlock, samePackerFrame_blockCount (packBits_frame s bits)]

section
variable {s : State} {k : BlockKind} {d : Data} {q : Fin 64 → Int} (hst : s.st = .active)
  (hfill : s.fill = 63) (hmode : s.bmode = k)
  (hq : quantizedBlock Config.core k (s.buf.set 63 d) = q)
include hst hfill hmode hq

/-- The block's last element raises the check's error, or the block is written and closed (R116, R117). -/
theorem exec_last_cases :
    (∃ e, entropyCheck (zigzag q) s.prevDC.toInt = some e ∧
      exec (elementInstr k d) s = .next (raiseError e s)) ∨
    (entropyCheck (zigzag q) s.prevDC.toInt = none ∧
      exec (elementInstr k d) s = .next (closeBlock (q 0)
        (packBits { s with buf := s.buf.set 63 d }
          (blockBits Config.core (zigzag q) s.prevDC.toInt)))) := by
  subst hmode hq
  rw [exec_elementInstr_of_active hst]
  obtain ⟨h, -⟩ | ⟨-, -, h, -⟩ | ⟨-, -, -, b, e, rfl, hcheck, h⟩ | ⟨-, -, -, b, rfl, hcheck, h⟩ |
    ⟨-, -, h, -⟩ := doWrite_cases Config.core s.bmode d s
  · exact absurd hst h
  · exact absurd rfl h
  · rw [storeElement_last hfill] at hcheck
    exact .inl ⟨e, hcheck, by rw [h]⟩
  · rw [storeElement_last hfill] at hcheck h
    exact .inr ⟨hcheck, by rw [h]; rfl⟩
  · exact absurd hfill h

theorem exec_last_of_refused {e : ErrorCode} (hcheck : entropyCheck (zigzag q) s.prevDC.toInt = some e) :
    exec (elementInstr k d) s = .next (raiseError e s) := by
  obtain ⟨e', he', h⟩ | ⟨hnone, -⟩ := exec_last_cases hst hfill hmode hq
  · cases he'.symm.trans hcheck
    exact h
  · cases hnone.symm.trans hcheck

theorem exec_last_of_passes (hcheck : entropyCheck (zigzag q) s.prevDC.toInt = none) :
    exec (elementInstr k d) s = .next
      { packBits { s with buf := s.buf.set 63 d } (blockBits Config.core (zigzag q) s.prevDC.toInt) with
        prevDC := BitVec.ofInt 16 (q 0)
        blockCount := s.blockCount + 1
        anyblk := true
        fill := 0 } := by
  obtain ⟨e, he, -⟩ | ⟨-, h⟩ := exec_last_cases hst hfill hmode hq
  · cases he.symm.trans hcheck
  · rw [h, closeBlock_packBits]

end

/-- Settles O13: each condition is that of one of the check's two errors. -/
theorem blockRefusedWhole : Obligations.BlockRefusedWhole := by
  intro d s hst hfill
  exact ⟨fun hdc => exec_last_of_refused hst hfill rfl rfl (entropyCheck_zigzag_dcCat hdc),
    fun hdc hac => exec_last_of_refused hst hfill rfl rfl (entropyCheck_zigzag_acCat hdc hac)⟩

/-- Settles O11: the quantized block is the transform's, and it passes the check. -/
theorem sampleBlockEncodes : Obligations.SampleBlockEncodes := by
  intro d s hst hfill hmode buf f q hdc hac
  have hq : quantizedBlock Config.core .sample buf = q := funext (quantizedBlock_core_sample buf)
  exact exec_last_of_passes (q := q) hst hfill hmode hq (entropyCheck_zigzag_passes hdc hac)

/-- Settles O12: the quantized block is the operands, and it passes the check; the operand at index 0
fits `prevDC`. -/
theorem coefBlockEncodes : Obligations.CoefBlockEncodes := by
  intro d s hst hfill hmode buf q hdc hac
  have hq : quantizedBlock Config.core .coef buf = q := rfl
  have hprev : BitVec.ofInt 16 (q 0) = buf[0] := BitVec.ofInt_toInt
  rw [← hprev]
  exact exec_last_of_passes (q := q) hst hfill hmode hq (entropyCheck_zigzag_passes hdc hac)

end Sys2Proof.Machine
end

section
/-!
The transform in real arithmetic: the rows of the basis have norm 1, which bounds the coefficients
(41_transform.md R144), and all but the first sum to 0, which leaves a constant block one coefficient (R148).
-/

namespace Sys2Proof.Machine

/-- The sum of the cosines of eight odd multiples of an angle telescopes. -/
theorem two_sin_mul_sum_cos_odd (θ : ℝ) :
    2 * Real.sin θ * ∑ n : Fin 8, Real.cos ((2 * n.val + 1) * θ) = Real.sin (16 * θ) := by
  have term : ∀ n : ℕ, 2 * Real.sin θ * Real.cos ((2 * n + 1) * θ) =
      Real.sin (2 * (n + 1 : ℕ) * θ) - Real.sin (2 * n * θ) := fun n => by
    rw [Real.two_mul_sin_mul_cos, ← neg_sub, Real.sin_neg, add_comm]
    push_cast
    ring_nf
  rw [Fin.sum_univ_eq_sum_range (fun n : ℕ => Real.cos ((2 * n + 1) * θ)), Finset.mul_sum,
    Finset.sum_congr rfl fun n _ => term n, Finset.sum_range_sub fun n : ℕ => Real.sin (2 * n * θ)]
  norm_num

/-- Where 16 times the angle is a multiple of π and the angle is inside a half turn, the sum is 0. -/
theorem sum_cos_odd_eq_zero {θ : ℝ} {m : ℕ} (h0 : 0 < θ) (hπ : θ < Real.pi)
    (hm : 16 * θ = m * Real.pi) : ∑ n : Fin 8, Real.cos ((2 * n.val + 1) * θ) = 0 := by
  have h := two_sin_mul_sum_cos_odd θ
  rw [hm, Real.sin_nat_mul_pi] at h
  exact (mul_eq_zero.mp h).resolve_left (by linarith [Real.sin_pos_of_pos_of_lt_pi h0 hπ])

theorem dctBasis_zero (n : Fin 8) : dctBasis 0 n = √2 / 4 := by
  have hscale : dctScale 0 = √2 / 2 := by simp [dctScale, Real.sqrt_div_self']
  simp only [dctBasis, hscale, Fin.val_zero, Nat.cast_zero, mul_zero, zero_mul, zero_div,
    Real.cos_zero]
  ring

theorem dctBasis_of_ne_zero {k : Fin 8} (hk : k ≠ 0) (n : Fin 8) :
    dctBasis k n = Real.cos ((2 * n.val + 1) * (k.val * Real.pi / 16)) / 2 := by
  simp only [dctBasis, dctScale, if_neg hk]
  ring_nf

/-- A row number other than 0, as the real factor in the basis's angle. -/
theorem row_pos_lt {k : Fin 8} (hk : k ≠ 0) : 0 < (k.val : ℝ) ∧ (k.val : ℝ) < 8 :=
  ⟨by exact_mod_cast Nat.pos_of_ne_zero (Fin.val_ne_zero_iff.mpr hk), by exact_mod_cast k.isLt⟩

theorem sum_dctBasis (k : Fin 8) : ∑ n : Fin 8, dctBasis k n = if k = 0 then 2 * √2 else 0 := by
  split
  · next hk =>
    simp only [hk, dctBasis_zero, Finset.sum_const, Finset.card_univ, Fintype.card_fin]
    ring
  · next hk =>
    obtain ⟨h0, h8⟩ := row_pos_lt hk
    have hsum := sum_cos_odd_eq_zero (θ := k.val * Real.pi / 16) (m := k.val)
      (by positivity) (by nlinarith [Real.pi_pos]) (by ring)
    simp only [dctBasis_of_ne_zero hk, ← Finset.sum_div, hsum, zero_div]

/-- Each row of the basis has norm 1. -/
theorem sum_dctBasis_sq (k : Fin 8) : ∑ n : Fin 8, dctBasis k n ^ 2 = 1 := by
  by_cases hk : k = 0
  · subst hk
    simp only [dctBasis_zero, div_pow, Real.sq_sqrt zero_le_two]
    norm_num
  · obtain ⟨h0, h8⟩ := row_pos_lt hk
    have hsum := sum_cos_odd_eq_zero (θ := 2 * (k.val * Real.pi / 16)) (m := 2 * k.val)
      (by positivity) (by nlinarith [Real.pi_pos]) (by push_cast; ring)
    have term : ∀ n : Fin 8, dctBasis k n ^ 2 =
        1 / 8 + Real.cos ((2 * n.val + 1) * (2 * (k.val * Real.pi / 16))) / 8 := fun n => by
      rw [dctBasis_of_ne_zero hk, div_pow, Real.cos_sq]
      ring_nf
    simp only [term, Finset.sum_add_distrib, ← Finset.sum_div, hsum]
    norm_num

/-- A pass of the transform gives no coefficient with more energy than its eight inputs have. -/
theorem sum_dctBasis_mul_sq_le (k : Fin 8) (g : Fin 8 → ℝ) :
    (∑ n : Fin 8, dctBasis k n * g n) ^ 2 ≤ ∑ n : Fin 8, g n ^ 2 := by
  simpa only [sum_dctBasis_sq, one_mul] using
    Finset.sum_mul_sq_le_sq_mul_sq Finset.univ (dctBasis k) g

/-- R144: the energy of 64 samples within 128 is at most 1024². -/
theorem abs_dctDirect_le (f : Fin 64 → ℚ) (u v : Fin 8) (hf : ∀ i, |(f i : ℝ)| ≤ 128) :
    |dctDirect f u v| ≤ 1024 := by
  refine abs_le_of_sq_le_sq ?_ (by norm_num)
  calc dctDirect f u v ^ 2
      ≤ ∑ y : Fin 8, (∑ x : Fin 8, dctBasis u x * (f (natIndex y x) : ℝ)) ^ 2 := by
        rw [dctDirect_eq_sum]; exact sum_dctBasis_mul_sq_le v _
    _ ≤ ∑ y : Fin 8, ∑ x : Fin 8, (f (natIndex y x) : ℝ) ^ 2 :=
        Finset.sum_le_sum fun y _ => sum_dctBasis_mul_sq_le u _
    _ ≤ ∑ _y : Fin 8, ∑ _x : Fin 8, (128 : ℝ) ^ 2 :=
        Finset.sum_le_sum fun y _ => Finset.sum_le_sum fun x _ =>
          sq_le_sq' (abs_le.mp (hf _)).1 (abs_le.mp (hf _)).2
    _ = 1024 ^ 2 := by simp; norm_num

/-- With at least 8 fraction bits a SAMPLE operand is within 128 (R93). -/
theorem abs_sampleValue_le {fracBits : Nat} (h : 8 ≤ fracBits) (d : Data) :
    |(sampleValue fracBits d : ℝ)| ≤ 128 := by
  have hpow : (2 : ℝ) ^ 8 ≤ 2 ^ fracBits := pow_le_pow_right₀ one_le_two h
  have h8 := sampleValue_bound d
  simp only [sampleValue, Rat.cast_div, Rat.cast_pow, Rat.cast_ofNat, abs_div, abs_pow,
    Nat.abs_ofNat] at h8 ⊢
  exact (div_le_div_of_nonneg_left (abs_nonneg _) (by positivity) hpow).trans h8

theorem coefFracBits_le {cfg : Config} (h : cfg.WellFormed = true) : cfg.coefFracBits ≤ 20 := by
  simp only [Config.WellFormed, Config.widthsOk, Bool.and_eq_true, decide_eq_true_eq] at h
  omega

section
variable {cfg : Config} (hdct : cfg.DctWithinTol) (hfrac : 8 ≤ cfg.sampleFracBits)
  (htol : cfg.dctTol < 1 / 2) (buf : Vector Data 64) (i : Fin 64)
include hdct hfrac htol

/-- R144: a conforming transform's coefficient of a SAMPLE block is within 1024.5. -/
theorem abs_dct_div_lt : |(cfg.dct (blockSamples cfg buf) i : ℝ) / 2 ^ cfg.coefFracBits| < 1024.5 := by
  have herr : |(cfg.dct (blockSamples cfg buf) i : ℝ) / 2 ^ cfg.coefFracBits
      - dctDirect (blockSamples cfg buf) (colOf i) (rowOf i)| ≤ (cfg.dctTol : ℝ) :=
    hdct (fun j => buf[j]) i
  have hF := abs_dctDirect_le (blockSamples cfg buf) (colOf i) (rowOf i)
    fun j => abs_sampleValue_le hfrac buf[j]
  have htol' : (cfg.dctTol : ℝ) < 1 / 2 := (Rat.cast_lt.mpr htol).trans_eq (by norm_num)
  linarith [abs_sub_abs_le_abs_sub ((cfg.dct (blockSamples cfg buf) i : ℝ) / 2 ^ cfg.coefFracBits)
    (dctDirect (blockSamples cfg buf) (colOf i) (rowOf i))]

/-- R144: 12 integer bits, the sign among them, and the fraction bits hold the coefficient. -/
theorem abs_dct_lt : |cfg.dct (blockSamples cfg buf) i| < 2 ^ (11 + cfg.coefFracBits) := by
  have h := abs_dct_div_lt hdct hfrac htol buf i
  rw [abs_div, abs_of_pos (by positivity : (0 : ℝ) < 2 ^ cfg.coefFracBits),
    div_lt_iff₀ (by positivity)] at h
  have hreal : |(cfg.dct (blockSamples cfg buf) i : ℝ)| < 2 ^ (11 + cfg.coefFracBits) := by
    rw [pow_add]
    exact h.trans_le (mul_le_mul_of_nonneg_right (by norm_num) (by positivity))
  exact_mod_cast hreal

/-- R144: the coefficient fits its register, which holds it exactly. -/
theorem dct_fits (hwf : cfg.WellFormed = true) :
    let c := cfg.dct (blockSamples cfg buf) i
    c < 2 ^ (11 + cfg.coefFracBits) ∧ -(2 : Int) ^ (11 + cfg.coefFracBits) ≤ c ∧
      (stageOutput cfg (blockSamples cfg buf) i).toInt = c := by
  have h := abs_dct_lt hdct hfrac htol buf i
  have hbits := coefFracBits_le hwf
  have hpow : (2 : Int) ^ (11 + cfg.coefFracBits) ≤ 2 ^ 31 :=
    pow_le_pow_right₀ one_le_two (by omega)
  have hc := abs_lt.mp h
  exact ⟨hc.2, hc.1.le, stageRegister_toInt (by omega)⟩

end

/-- Settles O41, by the energy of a block and the tolerance. -/
theorem coefficientRange : Obligations.CoefficientRange := by
  refine ⟨fun f u v hf => abs_dctDirect_le f u v fun i => by exact_mod_cast hf i,
    fun cfg buf i hwf hdct hfrac htol => dct_fits hdct hfrac htol buf i hwf, fun buf i => ?_⟩
  have htol : Config.core.dctTol < 1 / 2 := show (1 / 1000 : ℚ) < 1 / 2 by norm_num
  exact dct_fits Config.core_dctWithinTol le_rfl htol buf i core_wellFormed

/-- R148: on a constant block each pass multiplies by the sum of a row, which is 0 for all rows but the
first. -/
theorem dctDirect_const (k : ℚ) (u v : Fin 8) :
    dctDirect (fun _ => k) u v = if u = 0 ∧ v = 0 then 8 * (k : ℝ) else 0 := by
  have hsums : dctDirect (fun _ => k) u v =
      (∑ y : Fin 8, dctBasis v y) * ((∑ x : Fin 8, dctBasis u x) * k) := by
    rw [dctDirect_eq_sum, Finset.sum_mul, Finset.sum_mul]
  rw [hsums, sum_dctBasis, sum_dctBasis]
  by_cases hu : u = 0
  · by_cases hv : v = 0
    · simp only [hu, hv, if_true, and_self]
      linear_combination 4 * (k : ℝ) * Real.mul_self_sqrt (zero_le_two (α := ℝ))
    · simp [hv]
  · simp [hu]

theorem col_row_eq_zero_iff (i : Fin 64) : colOf i = 0 ∧ rowOf i = 0 ↔ i = 0 := by
  simp only [Fin.ext_iff, colOf, rowOf, Fin.val_zero]
  omega

/-- Settles O42: the tolerance is about the direct form, whose coefficients of a constant block are
known. -/
theorem allEqualBlockTransform : Obligations.AllEqualBlockTransform := by
  refine ⟨dctDirect_const, fun cfg d i hdct => ?_⟩
  have h := hdct (fun _ => d) i
  simpa only [dctDirect_const, col_row_eq_zero_iff] using h

end Sys2Proof.Machine
end

section
/-!
The quantizer: its magnitude as a quotient of naturals, from which its rounding (42_quantizer.md R161, R162)
and the range of a SAMPLE block (R166) follow, and with the range that such a block is never refused
(44_entropy.md R199).
-/

namespace Sys2Proof.Machine

theorem natAbs_quant (n : Nat) (c : Int) (qd : Nat) :
    (quant n c qd).natAbs = (2 * c.natAbs + qd * 2 ^ n) / (2 * (qd * 2 ^ n)) := by
  unfold quant
  split
  · exact Int.natAbs_natCast _
  · rw [Int.natAbs_neg, Int.natAbs_natCast]

theorem quant_nonneg (n : Nat) {c : Int} (hc : 0 ≤ c) (qd : Nat) : 0 ≤ quant n c qd := by
  rw [quant, if_pos hc]
  exact Int.natCast_nonneg _

theorem quant_nonpos (n : Nat) {c : Int} (hc : c < 0) (qd : Nat) : quant n c qd ≤ 0 := by
  rw [quant, if_neg (not_le.mpr hc)]
  exact neg_nonpos.mpr (Int.natCast_nonneg _)

section
variable (n : Nat) (c : Int) {qd : Nat} (hqd : 1 ≤ qd)
include hqd

/-- The magnitude is at most `m` exactly for a coefficient below `m` divisors and a half (R161). -/
theorem natAbs_quant_le_iff (m : Nat) :
    (quant n c qd).natAbs ≤ m ↔ 2 * c.natAbs < (2 * m + 1) * (qd * 2 ^ n) := by
  have hd : 0 < 2 * (qd * 2 ^ n) := by positivity
  rw [natAbs_quant, ← Nat.lt_succ_iff, Nat.div_lt_iff_lt_mul hd]
  have hsum : m.succ * (2 * (qd * 2 ^ n)) = (2 * m + 1) * (qd * 2 ^ n) + qd * 2 ^ n := by
    rw [Nat.succ_eq_add_one]
    ring
  omega

/-- R162: a coefficient of `m` divisors and a half goes away from zero. -/
theorem natAbs_quant_of_half {m : Nat} (h : 2 * c.natAbs = (2 * m + 1) * (qd * 2 ^ n)) :
    (quant n c qd).natAbs = m + 1 := by
  have hd : 0 < 2 * (qd * 2 ^ n) := by positivity
  have hnum : 2 * c.natAbs + qd * 2 ^ n = (m + 1) * (2 * (qd * 2 ^ n)) := by
    rw [h]
    ring
  rw [natAbs_quant, hnum, Nat.mul_div_cancel _ hd]

/-- The quantizer's natural quotient is the floor of the exact magnitude and a half (R14, R161). -/
theorem floor_abs_div_add_half : ⌊|(c : ℚ) / (2 ^ n * qd)| + 1 / 2⌋ = (quant n c qd).natAbs := by
  have hq : (qd : ℚ) ≠ 0 := Nat.cast_ne_zero.mpr (by omega)
  have habs : |(c : ℚ) / (2 ^ n * qd)| + 1 / 2 =
      ((2 * c.natAbs + qd * 2 ^ n : Nat) : ℚ) / ((2 * (qd * 2 ^ n) : Nat) : ℚ) := by
    rw [abs_div, abs_of_nonneg (by positivity : (0 : ℚ) ≤ 2 ^ n * qd)]
    push_cast [Nat.cast_natAbs]
    field_simp
  rw [natAbs_quant, habs, Rat.floor_natCast_div_natCast, Int.natCast_div]

end

/-- Settles O39: the magnitudes agree, and on both sides the sign is the coefficient's. -/
theorem quantizerRoundsHalfAway : Obligations.QuantizerRoundsHalfAway := by
  intro n c qd hqd
  have hd : (0 : ℚ) < 2 ^ n * qd := by positivity
  rw [roundHalfAway, floor_abs_div_add_half n c hqd]
  by_cases hc : c < 0
  · rw [if_pos (div_neg_of_neg_of_pos (Int.cast_lt_zero.mpr hc) hd),
      Int.ofNat_natAbs_of_nonpos (quant_nonpos n hc qd), neg_neg]
  · have hc' : 0 ≤ c := not_lt.mp hc
    rw [if_neg (not_lt.mpr (div_nonneg (Int.cast_nonneg hc') hd.le)),
      Int.natAbs_of_nonneg (quant_nonneg n hc' qd)]

/-- Settles O40: a half exactly, a magnitude of at most 0, and the sign. -/
theorem quantizerCornerCases : Obligations.QuantizerCornerCases := by
  intro n c qd m hqd
  refine ⟨natAbs_quant_of_half n c hqd, fun h => ?_, fun hc => quant_nonneg n hc.le qd,
    fun hc => quant_nonpos n hc qd⟩
  have hzero : (quant n c qd).natAbs ≤ 0 := (natAbs_quant_le_iff n c hqd 0).mpr (by omega)
  exact Int.natAbs_eq_zero.mp (Nat.le_zero.mp hzero)

theorem qtAt_pos {cfg : Config} (h : cfg.WellFormed = true) (i : Fin 64) : 1 ≤ cfg.qtAt i := by
  simp only [Config.WellFormed, Config.qtOk, Bool.and_eq_true, beq_iff_eq, List.all_eq_true,
    decide_eq_true_eq] at h
  obtain ⟨⟨⟨hlen, hall⟩, -⟩, -⟩ := h
  have hi : i.val < cfg.qt.length := by omega
  rw [Config.qtAt, List.getD_eq_getElem _ _ hi]
  exact (hall _ (List.getElem_mem hi)).1

section
variable {cfg : Config} (hwf : cfg.WellFormed = true) (hdct : cfg.DctWithinTol)
  (hfrac : 8 ≤ cfg.sampleFracBits) (htol : cfg.dctTol < 1 / 2) (buf : Vector Data 64) (i : Fin 64)
include hdct hfrac htol

/-- R144: a coefficient within 1024.5, counted in its fraction bits. -/
theorem two_mul_natAbs_dct_lt :
    2 * (cfg.dct (blockSamples cfg buf) i).natAbs < 2049 * 2 ^ cfg.coefFracBits := by
  have h := abs_dct_div_lt hdct hfrac htol buf i
  rw [abs_div, abs_of_pos (by positivity : (0 : ℝ) < 2 ^ cfg.coefFracBits),
    div_lt_iff₀ (by positivity)] at h
  have hreal : (2 * (cfg.dct (blockSamples cfg buf) i).natAbs : ℝ) < 2049 * 2 ^ cfg.coefFracBits := by
    rw [Nat.cast_natAbs, Int.cast_abs]
    linarith
  exact_mod_cast hreal

include hwf

/-- R166: a SAMPLE block's quantized value is within `m` where 1024.5 is at most `m` divisors and a half. -/
theorem natAbs_quantizedBlock_sample_le {m : Nat} (hm : 2049 ≤ (2 * m + 1) * cfg.qtAt i) :
    (quantizedBlock cfg .sample buf i).natAbs ≤ m := by
  obtain ⟨-, -, hreg⟩ := dct_fits hdct hfrac htol buf i hwf
  have hquant : quantizedBlock cfg .sample buf i =
      quant cfg.coefFracBits (cfg.dct (blockSamples cfg buf) i) (cfg.qtAt i) :=
    congrArg (quant cfg.coefFracBits · (cfg.qtAt i)) hreg
  rw [hquant, natAbs_quant_le_iff _ _ (qtAt_pos hwf i)]
  calc 2 * (cfg.dct (blockSamples cfg buf) i).natAbs
      < 2049 * 2 ^ cfg.coefFracBits := two_mul_natAbs_dct_lt hdct hfrac htol buf i
    _ ≤ (2 * m + 1) * cfg.qtAt i * 2 ^ cfg.coefFracBits := Nat.mul_le_mul_right _ hm
    _ = (2 * m + 1) * (cfg.qtAt i * 2 ^ cfg.coefFracBits) := Nat.mul_assoc _ _ _

end

/-- The default table's DC divisor is 16, and no AC divisor is below 10 (R163). -/
theorem core_qtAt_ge (i : Fin 64) : (if i = 0 then 16 else 10) ≤ Config.core.qtAt i := by
  have h : ∀ i : Fin 64, (if i = 0 then 16 else 10) ≤ defaultQt.getD i.val 0 := by decide
  exact h i

/-- R166: with the default table a SAMPLE block's DC coefficient is within 64, an AC one within 102. -/
theorem natAbs_quantizedBlock_core_sample_le (buf : Vector Data 64) (i : Fin 64) :
    (quantizedBlock Config.core .sample buf i).natAbs ≤ if i = 0 then 64 else 102 := by
  have htol : Config.core.dctTol < 1 / 2 := show (1 / 1000 : ℚ) < 1 / 2 by norm_num
  refine natAbs_quantizedBlock_sample_le core_wellFormed Config.core_dctWithinTol le_rfl htol buf i ?_
  have hqt := core_qtAt_ge i
  split at hqt
  · next hi =>
    rw [if_pos hi]
    omega
  · next hi =>
    rw [if_neg hi]
    omega

/-- Settles O43: every divisor is at least 1, and the default table's are known. -/
theorem quantizedSampleRange : Obligations.QuantizedSampleRange := by
  refine ⟨fun cfg buf i hwf hdct hfrac htol => ?_, natAbs_quantizedBlock_core_sample_le⟩
  have hqt := qtAt_pos hwf i
  exact natAbs_quantizedBlock_sample_le hwf hdct hfrac.ge htol buf i (by omega)

/-- R166, R199: with the default tables a SAMPLE block passes the check where `prevDC` is within 2047 − 64
of 0. -/
theorem entropyCheck_core_sample_passes (buf : Vector Data 64) {p : Int} (hp : p.natAbs ≤ 1983) :
    entropyCheck (zigzag (quantizedBlock Config.core .sample buf)) p = none := by
  refine entropyCheck_zigzag_passes ?_ fun i hi => ?_
  · have hdc := natAbs_quantizedBlock_core_sample_le buf 0
    rw [if_pos rfl] at hdc
    rw [cat_le_iff]
    omega
  · have hac := natAbs_quantizedBlock_core_sample_le buf i
    rw [if_neg hi] at hac
    rw [cat_le_iff]
    omega

/-- Settles O14: the block passes the check, and its DC coefficient fits `prevDC` unwrapped. -/
theorem sampleBlockCompletesWithDefaultTables :
    Obligations.SampleBlockCompletesWithDefaultTables := by
  intro d s hst hfill hmode hprev
  have hcheck := entropyCheck_core_sample_passes (s.buf.set 63 d) hprev
  have hdc := natAbs_quantizedBlock_core_sample_le (s.buf.set 63 d) 0
  rw [if_pos rfl] at hdc
  have hframe := packBits_frame { s with buf := s.buf.set 63 d } (blockBits Config.core
    (zigzag (quantizedBlock Config.core .sample (s.buf.set 63 d))) s.prevDC.toInt)
  have hactive := (samePackerFrame_st hframe).trans hst
  have herr := samePackerFrame_errcode hframe
  refine ⟨_, exec_last_of_passes hst hfill hmode rfl hcheck, hactive, herr, rfl, rfl, rfl, ?_⟩
  rw [BitVec.toInt_ofInt_eq_self (by decide) (by omega) (by omega)]
  exact hdc

end Sys2Proof.Machine
end

section
/-!
The zigzag map: it is the diagonal scan, and with its inverse it undoes itself in either order
(43_zigzag.md R181, R183).
-/

namespace Sys2Proof.Machine

/-- R181: the 64 entries of the table are those the diagonal scan visits, in its order. -/
theorem map_zz_eq_zzScan : (List.finRange 64).map (fun k => (zz k).val) = zzScan := by
  decide

theorem zzInv_zz (k : Fin 64) : zzInv (zz k) = k := by
  revert k
  decide

/-- R183: `ZZinv[n]` is the one position that holds natural index n. -/
theorem zz_eq_iff_eq_zzInv (n k : Fin 64) : zz k = n ↔ k = zzInv n := by
  constructor
  · rintro rfl
    exact (zzInv_zz k).symm
  · rintro rfl
    exact zz_zzInv n

section
variable {α : Type} (a : Fin 64 → α)

theorem unzigzag_zigzag : unzigzag (zigzag a) = a :=
  funext fun n => congrArg a (zz_zzInv n)

theorem zigzag_unzigzag : zigzag (unzigzag a) = a :=
  funext fun k => congrArg a (zzInv_zz k)

end

/-- Settles O38: both round trips are the two inverse laws of the map, index by index. -/
theorem zigzagRoundTrip : Obligations.ZigzagRoundTrip :=
  ⟨map_zz_eq_zzScan, zz_eq_iff_eq_zzInv, fun a => ⟨unzigzag_zigzag a, zigzag_unzigzag a⟩⟩

end Sys2Proof.Machine
end

section
/-!
The exact arithmetic of the coder: bit strings read back as numbers, categories as bit lengths, and the
value bits with their decoding law (00_scope.md R13, R15; 44_entropy.md R191 to R194).
-/

namespace Sys2Proof.Machine

theorem foldl_codeBits (c : Nat) : ∀ L a : Nat,
    (codeBits c L).foldl (fun acc b => 2 * acc + b.toNat) a = a * 2 ^ L + c % 2 ^ L
  | 0, a => by simp [Nat.mod_one]
  | L + 1, a => by
    rw [codeBits, List.foldl_cons, foldl_codeBits c L, Nat.mod_pow_succ, Nat.toNat_testBit]
    ring

/-- R15: the low `L` bits of a number are those of its residue modulo `2^L`. -/
theorem bitsValue_codeBits (c L : Nat) : bitsValue (codeBits c L) = c % 2 ^ L := by
  rw [bitsValue, foldl_codeBits, Nat.zero_mul, Nat.zero_add]

theorem bitsValue_codeBits_of_lt {c L : Nat} (h : c < 2 ^ L) : bitsValue (codeBits c L) = c := by
  rw [bitsValue_codeBits, Nat.mod_eq_of_lt h]

theorem codeBits_injective {c d L : Nat} (hc : c < 2 ^ L) (hd : d < 2 ^ L)
    (h : codeBits c L = codeBits d L) : c = d := by
  rw [← bitsValue_codeBits_of_lt hc, h, bitsValue_codeBits_of_lt hd]

/-- A bit string is that of its upper bits followed by that of its lower ones. -/
theorem codeBits_add (c k : Nat) : ∀ m : Nat,
    codeBits c (m + k) = codeBits (c / 2 ^ k) m ++ codeBits c k
  | 0 => by simp
  | m + 1 => by
    rw [Nat.succ_add_eq_add_succ, Nat.add_succ, codeBits, codeBits_add c k m, codeBits,
      Nat.testBit_div_two_pow, List.cons_append]

/-- The leading bit of a number below `2^L` says whether it is at least `2^(L-1)`. -/
theorem head?_codeBits {c L : Nat} (hL : L ≠ 0) (h : c < 2 ^ L) :
    (codeBits c L).head? = some (decide (2 ^ (L - 1) ≤ c)) := by
  obtain ⟨m, rfl⟩ := Nat.exists_eq_succ_of_ne_zero hL
  have hdiv : c / 2 ^ m < 2 := Nat.div_lt_of_lt_mul (by rwa [← Nat.pow_succ])
  have hiff : c / 2 ^ m % 2 = 1 ↔ 2 ^ m ≤ c := by
    rw [Nat.mod_eq_of_lt hdiv, ← Nat.one_le_div_iff (Nat.two_pow_pos m)]
    omega
  rw [codeBits, List.head?_cons, Nat.testBit_eq_decide_div_mod_eq, Nat.succ_sub_one]
  simp only [hiff]

/-! ### Categories -/

theorem cat_eq_iff (v : Int) {n : Nat} (hn : 1 ≤ n) :
    cat v = n ↔ 2 ^ (n - 1) ≤ v.natAbs ∧ v.natAbs ≤ 2 ^ n - 1 := by
  have hupper := cat_le_iff v n
  have hlower := cat_le_iff v (n - 1)
  have hpos := Nat.two_pow_pos n
  omega

theorem natAbs_lt_two_pow_cat (v : Int) : v.natAbs < 2 ^ cat v := (cat_le_iff v _).mp le_rfl

theorem cat_pos {v : Int} (h : v ≠ 0) : 0 < cat v := bitlen_pos (Int.natAbs_ne_zero.mpr h)

theorem two_pow_le_natAbs {v : Int} (h : v ≠ 0) : 2 ^ (cat v - 1) ≤ v.natAbs :=
  ((cat_eq_iff v (cat_pos h)).mp rfl).1

/-- Settles O27: `cat v ≤ L` is `|v| < 2^L`, used at `n` and at `n - 1`. -/
theorem categoryIsBitLength : Obligations.CategoryIsBitLength :=
  ⟨rfl, by decide, by decide, by decide, by decide, fun v _ => cat_eq_iff v⟩

/-! ### Value bits -/

theorem vbits_of_nonneg {v : Int} (h : 0 ≤ v) : (vbits v : Int) = v := by
  rw [vbits, if_pos h, Int.toNat_of_nonneg h]

theorem vbits_of_neg {v : Int} (h : v < 0) : (vbits v : Int) = v + 2 ^ cat v - 1 := by
  have hlt : (v.natAbs : Int) < 2 ^ cat v := mod_cast natAbs_lt_two_pow_cat v
  rw [vbits, if_neg (not_le.mpr h), Int.toNat_of_nonneg (by omega)]

/-- The number of a negative value is the complement of its magnitude in `cat v` bits (R192). -/
theorem vbits_eq_complement {v : Int} (h : v < 0) : vbits v = (2 ^ cat v - 1) - v.natAbs := by
  have hv : (vbits v : Int) = v + (2 ^ cat v : Nat) - 1 := mod_cast vbits_of_neg h
  have hlt := natAbs_lt_two_pow_cat v
  omega

theorem vbits_of_neg_eq_mod {v : Int} (h : v < 0) : (vbits v : Int) = (v - 1) % 2 ^ cat v := by
  have hlt : (v.natAbs : Int) < 2 ^ cat v := mod_cast natAbs_lt_two_pow_cat v
  rw [vbits_of_neg h, ← Int.add_emod_right, Int.emod_eq_of_lt] <;> omega

theorem vbits_lt (v : Int) : vbits v < 2 ^ cat v := by
  have hlt := natAbs_lt_two_pow_cat v
  rcases le_or_gt 0 v with h | h
  · have hv := vbits_of_nonneg h
    omega
  · have hv := vbits_eq_complement h
    omega

/-- Settles O28: the three forms of a negative value's number differ by multiples of `2^cat v`. -/
theorem valueBitsOnesComplement : Obligations.ValueBitsOnesComplement := fun _ =>
  ⟨rfl, valueBits_zero, vbits_of_nonneg,
    fun h => ⟨vbits_of_neg h, vbits_of_neg_eq_mod h, vbits_eq_complement h⟩⟩

/-! ### The decoding law -/

theorem bitsValue_valueBits (v : Int) : bitsValue (valueBits v) = vbits v :=
  bitsValue_codeBits_of_lt (vbits_lt v)

/-- The number of a nonzero value is in the upper half exactly when the value is positive (R193). -/
theorem two_pow_le_vbits_iff {v : Int} (h : v ≠ 0) : 2 ^ (cat v - 1) ≤ vbits v ↔ 0 < v := by
  have hle := two_pow_le_natAbs h
  have hone := Nat.two_pow_pos (cat v - 1)
  have hpow : 2 ^ cat v = 2 * 2 ^ (cat v - 1) := (mul_pow_sub_one (cat_pos h).ne' 2).symm
  rcases lt_or_gt_of_ne h with hneg | hpos
  · have hv := vbits_eq_complement hneg
    omega
  · have hv := vbits_of_nonneg hpos.le
    omega

theorem vliDecode_vbits (v : Int) : vliDecode (cat v) (vbits v) = v := by
  by_cases h : v = 0
  · subst h
    rfl
  have hiff := two_pow_le_vbits_iff h
  rw [vliDecode, if_neg (cat_pos h).ne']
  split
  · next hle => exact vbits_of_nonneg (hiff.mp hle).le
  · next hlt =>
    rw [vbits_of_neg (lt_of_le_of_ne (not_lt.mp (mt hiff.mpr hlt)) h)]
    ring

theorem head?_valueBits {v : Int} (h : v ≠ 0) : (valueBits v).head? = some (decide (0 < v)) := by
  rw [valueBits, head?_codeBits (cat_pos h).ne' (vbits_lt v)]
  simp only [two_pow_le_vbits_iff h]

/-- Settles O29: the bits are read back as `vbits v`, whose half says the sign. -/
theorem vliRoundTrip : Obligations.VliRoundTrip := fun v =>
  ⟨valueBits_length v, bitsValue_valueBits v, by rw [bitsValue_valueBits, vliDecode_vbits],
    head?_valueBits⟩

/-- Values of one category have different value bits: the decoding law tells them apart. -/
theorem eq_of_valueBits_eq {v w : Int} (hcat : cat v = cat w) (h : valueBits v = valueBits w) :
    v = w := by
  rw [← vliDecode_vbits v, ← bitsValue_valueBits v, h, hcat, bitsValue_valueBits, vliDecode_vbits]

end Sys2Proof.Machine
end

section
/-!
The entropy check and the scan of a block: what the check answers, and the symbols and bits that runs of
zeros, nonzero coefficients and the end of the block give (44_entropy.md R198 to R201).
-/

namespace Sys2Proof.Machine

/-! ### The entropy check -/

theorem dcDiff_eq (z : Fin 64 → Int) (prevDC : Int) : dcDiff z prevDC = z 0 - prevDC := rfl

/-- The check looks at every AC coefficient, whatever its position (R199). -/
theorem any_acList_iff (z : Fin 64 → Int) :
    (acList z).any (fun v => decide (10 < cat v)) = true ↔ ∃ k : Fin 64, k ≠ 0 ∧ 10 < cat (z k) := by
  simp [mem_acList, Fin.exists_fin_succ]

/-- Settles O30: the two tests of the check, made in order. -/
theorem entropyCheckOutcomes : Obligations.EntropyCheckOutcomes := by
  intro z prevDC
  have hac := any_acList_iff z
  unfold entropyCheck
  rw [dcDiff_eq]
  simp only [hac]
  split_ifs with hdc hbig
  · simp [hdc]
  · simpa [not_lt.mp hdc] using hbig
  · simpa [not_lt.mp hdc] using hbig

/-! ### Runs of zeros -/

theorem acList_eq_ofFn (z : Fin 64 → Int) : acList z = List.ofFn fun k : Fin 63 => z k.succ :=
  List.ofFn_eq_map.symm

section
variable (cfg : Config)

@[simp] theorem acBits_nil_zero : acBits cfg 0 [] = [] := rfl

theorem acBits_nil_of_pos {r : Nat} (h : 0 < r) : acBits cfg r [] = (cfg.achuf 0x00).bits := if_pos h

theorem acBits_zero_cons (r : Nat) (rest : List Int) :
    acBits cfg r (0 :: rest) = acBits cfg (r + 1) rest := if_pos rfl

theorem acBits_cons_of_ne (r : Nat) {v : Int} (h : v ≠ 0) (rest : List Int) :
    acBits cfg r (v :: rest) = acCoefBits cfg r v ++ acBits cfg 0 rest := if_neg h

/-- A run of zeros only counts (R198). -/
theorem acBits_replicate_append (rest : List Int) : ∀ r k : Nat,
    acBits cfg k (List.replicate r 0 ++ rest) = acBits cfg (k + r) rest
  | 0, _ => rfl
  | r + 1, k => by
    rw [List.replicate_succ, List.cons_append, acBits_zero_cons, acBits_replicate_append rest r,
      Nat.add_assoc, Nat.add_comm 1 r]

theorem acBits_run_cons (r : Nat) {v : Int} (h : v ≠ 0) (rest : List Int) :
    acBits cfg 0 (List.replicate r 0 ++ v :: rest) = acCoefBits cfg r v ++ acBits cfg 0 rest := by
  rw [acBits_replicate_append, Nat.zero_add, acBits_cons_of_ne cfg r h]

theorem acBits_replicate (r : Nat) :
    acBits cfg 0 (List.replicate r 0) = if r = 0 then [] else (cfg.achuf 0x00).bits := by
  rw [← List.append_nil (List.replicate r 0), acBits_replicate_append, Nat.zero_add]
  split
  · next h => rw [h, acBits_nil_zero]
  · next h => exact acBits_nil_of_pos cfg (Nat.pos_of_ne_zero h)

end

/-- Settles O31: the definitions of the parts, and the scan over a run of zeros. -/
theorem runLengthSymbols : Obligations.RunLengthSymbols := fun cfg r =>
  ⟨fun z prevDC => by rw [← acList_eq_ofFn]; rfl,
    fun _ rest hv => acBits_run_cons cfg r hv rest, acBits_replicate cfg r⟩

/-! ### The end of a block -/

/-- The scan of coefficients whose last one is zero ends with EOB. -/
theorem acBits_concat_zero (cfg : Config) : ∀ (l : List Int) (r : Nat),
    (cfg.achuf 0x00).bits <:+ acBits cfg r (l ++ [0])
  | [], r => by
    rw [List.nil_append, acBits_zero_cons, acBits_nil_of_pos cfg r.succ_pos]
  | v :: l, r => by
    rw [List.cons_append]
    by_cases h : v = 0
    · rw [h, acBits_zero_cons]
      exact acBits_concat_zero cfg l (r + 1)
    · rw [acBits_cons_of_ne cfg r h]
      exact (acBits_concat_zero cfg l 0).trans (List.suffix_append _ _)

/-- The scan of coefficients whose last one is not zero ends with that one's symbol and value bits. -/
theorem acBits_concat_of_ne (cfg : Config) {w : Int} (hw : w ≠ 0) : ∀ (l : List Int) (r : Nat),
    ∃ run < 16, (cfg.achuf (run * 16 + cat w)).bits ++ valueBits w <:+ acBits cfg r (l ++ [w])
  | [], r => by
    refine ⟨r % 16, Nat.mod_lt r (by decide), zrlBits cfg (r / 16), ?_⟩
    rw [List.nil_append, acBits_cons_of_ne cfg r hw, acBits_nil_zero, List.append_nil, acCoefBits,
      List.append_assoc]
  | v :: l, r => by
    rw [List.cons_append]
    by_cases h : v = 0
    · rw [h, acBits_zero_cons]
      exact acBits_concat_of_ne cfg hw l (r + 1)
    · obtain ⟨run, hrun, hsuffix⟩ := acBits_concat_of_ne cfg hw l 0
      rw [acBits_cons_of_ne cfg r h]
      exact ⟨run, hrun, hsuffix.trans (List.suffix_append _ _)⟩

/-- The last AC coefficient is the one at position 63. -/
theorem acList_eq_concat (z : Fin 64 → Int) :
    acList z = (List.ofFn fun k : Fin 62 => z k.castSucc.succ) ++ [z 63] := by
  rw [acList_eq_ofFn, List.ofFn_succ_last]
  rfl

theorem acList_eq_replicate {z : Fin 64 → Int} (h : ∀ k : Fin 64, k ≠ 0 → z k = 0) :
    acList z = List.replicate 63 0 := by
  rw [acList_eq_ofFn, ← List.ofFn_const]
  exact congrArg List.ofFn (funext fun k => h k.succ (Fin.succ_ne_zero k))

/-- Settles O32: the last coefficient of the scan decides how the bits end. -/
theorem endOfBlockOnlyAfterZero : Obligations.EndOfBlockOnlyAfterZero := by
  intro cfg z prevDC
  unfold blockBits
  rw [dcDiff_eq]
  refine ⟨fun hz => ?_, fun hz => ?_, fun hz => ?_⟩
  · rw [acList_eq_concat, hz]
    obtain ⟨ac, hac⟩ := acBits_concat_zero cfg (List.ofFn fun k : Fin 62 => z k.castSucc.succ) 0
    exact ⟨dcBits cfg (z 0 - prevDC) ++ ac, by rw [← hac, List.append_assoc], List.prefix_append _ _⟩
  · rw [acList_eq_concat]
    obtain ⟨run, hrun, ac, hac⟩ :=
      acBits_concat_of_ne cfg hz (List.ofFn fun k : Fin 62 => z k.castSucc.succ) 0
    exact ⟨dcBits cfg (z 0 - prevDC) ++ ac, run, hrun, by rw [← hac]; simp only [List.append_assoc]⟩
  · rw [acList_eq_replicate hz, acBits_replicate, if_neg (by decide)]

end Sys2Proof.Machine
end

section
/-!
The canonical code assignment: the lengths and codes of a table's entries and their order, by which no
code of a well-formed table begins another (44_entropy.md R203 to R208).
-/

namespace Sys2Proof.Machine

/-! ### The entries of a code list -/

theorem mem_levelCodes {L : Nat} {e : Nat × HuffCode} : ∀ {vals : List Nat} {code : Nat},
    e ∈ levelCodes L code vals → e.2.len = L ∧ code ≤ e.2.code ∧ e.2.code < code + vals.length
  | v :: vals, code, h => by
    rw [levelCodes, List.mem_cons] at h
    rw [List.length_cons]
    obtain rfl | h := h
    · exact ⟨rfl, le_rfl, Nat.lt_add_of_pos_right (Nat.succ_pos _)⟩
    · obtain ⟨hlen, hlo, hhi⟩ := mem_levelCodes h
      exact ⟨hlen, by omega, by omega⟩

/-- At the next length the codes start at twice the value, with one bit less to go (R207). -/
theorem mul_two_pow_le_doubled {L len m n : Nat} (hlen : L + 1 ≤ len) (h : m ≤ n) :
    m * 2 ^ (len - L) ≤ 2 * n * 2 ^ (len - (L + 1)) := by
  have hsucc : len - L = len - (L + 1) + 1 := by omega
  rw [hsucc, pow_succ', ← mul_assoc, mul_comm m 2]
  exact Nat.mul_le_mul_right _ (Nat.mul_le_mul_left 2 h)

/-- An entry's length is one of the histogram's, and its code comes from the first code of the list by
doubling at each length (R207). -/
theorem mem_codeList {e : Nat × HuffCode} : ∀ {bits vals : List Nat} {L code : Nat},
    e ∈ codeList L code bits vals →
      L ≤ e.2.len ∧ e.2.len < L + bits.length ∧ code * 2 ^ (e.2.len - L) ≤ e.2.code
  | n :: bits, vals, L, code, h => by
    rw [codeList, List.mem_append] at h
    rw [List.length_cons]
    obtain h | h := h
    · obtain ⟨rfl, hlo, -⟩ := mem_levelCodes h
      simpa using hlo
    · obtain ⟨hge, hlt, hcode⟩ := mem_codeList h
      exact ⟨by omega, by omega,
        (mul_two_pow_le_doubled hge (Nat.le_add_right code n)).trans hcode⟩

/-- `a` is assigned before `b`: it is no longer, and every code of `b`'s length that begins with `a` is
below `b`. -/
def HuffCode.Precedes (a b : HuffCode) : Prop :=
  a.len ≤ b.len ∧ (a.code + 1) * 2 ^ (b.len - a.len) ≤ b.code

theorem levelCodes_pairwise (L : Nat) : ∀ (vals : List Nat) (code : Nat),
    (levelCodes L code vals).Pairwise fun a b => a.2.Precedes b.2
  | [], _ => .nil
  | v :: vals, code => by
    refine .cons (fun e he => ?_) (levelCodes_pairwise L vals (code + 1))
    obtain ⟨rfl, hlo, -⟩ := mem_levelCodes he
    exact ⟨le_rfl, by simpa using hlo⟩

/-- The assignments of R207 are made in increasing order. -/
theorem codeList_pairwise : ∀ (bits vals : List Nat) (L code : Nat),
    (codeList L code bits vals).Pairwise fun a b => a.2.Precedes b.2
  | [], _, _, _ => .nil
  | n :: bits, vals, L, code => by
    refine List.pairwise_append.mpr
      ⟨levelCodes_pairwise L _ code, codeList_pairwise bits _ _ _, fun a ha b hb => ?_⟩
    obtain ⟨rfl, -, hhi⟩ := mem_levelCodes ha
    obtain ⟨hge, -, hcode⟩ := mem_codeList hb
    have htake := List.length_take_le n vals
    exact ⟨by omega, (mul_two_pow_le_doubled hge (by omega)).trans hcode⟩

/-! ### Codes that begin another -/

/-- A code that begins another one is what is left of it without its lower bits. -/
theorem HuffCode.code_eq_of_prefix {a b : HuffCode} (ha : a.code < 2 ^ a.len) (hb : b.code < 2 ^ b.len)
    (h : a.bits <+: b.bits) : a.len ≤ b.len ∧ a.code = b.code / 2 ^ (b.len - a.len) := by
  have hlen : a.len ≤ b.len := by simpa [HuffCode.bits] using h.length_le
  refine ⟨hlen, codeBits_injective ha ?_ ?_⟩
  · exact Nat.div_lt_of_lt_mul (by rwa [← Nat.pow_add, Nat.sub_add_cancel hlen])
  · have hsplit := codeBits_add b.code (b.len - a.len) a.len
    rw [Nat.add_sub_cancel' hlen] at hsplit
    rw [HuffCode.bits, HuffCode.bits, hsplit] at h
    exact (List.prefix_of_prefix_length_le h (List.prefix_append _ _) (by simp)).eq_of_length (by simp)

theorem HuffCode.Precedes.not_prefix {a b : HuffCode} (h : a.Precedes b) (ha : a.code < 2 ^ a.len)
    (hb : b.code < 2 ^ b.len) : ¬ a.bits <+: b.bits ∧ ¬ b.bits <+: a.bits := by
  obtain ⟨hlen, hcode⟩ := h
  have hpos := Nat.two_pow_pos (b.len - a.len)
  refine ⟨fun hp => ?_, fun hp => ?_⟩
  · obtain ⟨-, heq⟩ := code_eq_of_prefix ha hb hp
    rw [← Nat.le_div_iff_mul_le hpos, ← heq] at hcode
    omega
  · obtain ⟨hle, heq⟩ := code_eq_of_prefix hb ha hp
    rw [le_antisymm hlen hle, Nat.sub_self, pow_zero] at hcode
    rw [le_antisymm hlen hle, Nat.sub_self, pow_zero] at heq
    omega

/-! ### Lookups in a well-formed table -/

theorem tableEntry_mem_or (s : Nat) (codes : List (Nat × HuffCode)) :
    tableEntry codes s = ⟨0, 0⟩ ∨ (s, tableEntry codes s) ∈ codes := by
  induction codes using List.reverseRecOn with
  | nil => exact .inl rfl
  | append_singleton codes c ih =>
    rw [tableEntry, List.foldl_concat]
    split
    · next h => exact .inr (by simp [← h])
    · exact ih.imp_right (List.mem_append_left _)

section
variable {nsym : Nat} {needed bits vals : List Nat}

theorem huffmanOk_parts (hok : huffmanOk nsym needed bits vals = true) :
    bits.length = 16 ∧ (∀ e ∈ codeList 1 0 bits vals, e.2.code + 1 < 2 ^ e.2.len) ∧
      ∀ s ∈ needed, 1 ≤ (buildTable bits vals s).len := by
  simp only [huffmanOk, histogramOk, codesOk, symbolsCoded, Bool.and_eq_true, beq_iff_eq, List.all_eq_true,
    decide_eq_true_eq] at hok
  obtain ⟨⟨⟨⟨hlen, -⟩, -⟩, hcodes⟩, hneeded⟩ := hok
  exact ⟨hlen, hcodes, hneeded⟩

variable (hok : huffmanOk nsym needed bits vals = true)
include hok

/-- A symbol that can be looked up has been assigned a code (R208). -/
theorem buildTable_mem {s : Nat} (hs : s ∈ needed) :
    (s, buildTable bits vals s) ∈ codeList 1 0 bits vals := by
  obtain ⟨-, -, hneeded⟩ := huffmanOk_parts hok
  refine (tableEntry_mem_or s (codeList 1 0 bits vals)).resolve_left fun h => ?_
  have hlen := hneeded s hs
  rw [buildTable, h] at hlen
  exact absurd hlen (by decide)

theorem buildTable_code_lt {s : Nat} (hs : s ∈ needed) :
    (buildTable bits vals s).code < 2 ^ (buildTable bits vals s).len := by
  obtain ⟨-, hcodes, -⟩ := huffmanOk_parts hok
  exact Nat.lt_of_succ_lt (hcodes _ (buildTable_mem hok hs))

theorem buildTable_fits {s : Nat} (hs : s ∈ needed) :
    1 ≤ (buildTable bits vals s).len ∧ (buildTable bits vals s).len ≤ 16 ∧
      (buildTable bits vals s).code < 2 ^ (buildTable bits vals s).len := by
  obtain ⟨hbits, -, -⟩ := huffmanOk_parts hok
  obtain ⟨hge, hlt, -⟩ := mem_codeList (buildTable_mem hok hs)
  rw [hbits] at hlt
  exact ⟨hge, Nat.lt_succ_iff.mp hlt, buildTable_code_lt hok hs⟩

/-- No code of a well-formed table begins another: of two entries one was assigned before the other
(R207, R208). -/
theorem buildTable_prefixFree {a b : Nat} (ha : a ∈ needed) (hb : b ∈ needed) (hne : a ≠ b) :
    ¬ (buildTable bits vals a).bits <+: (buildTable bits vals b).bits := by
  have hcodeA := buildTable_code_lt hok ha
  have hcodeB := buildTable_code_lt hok hb
  have horder : (codeList 1 0 bits vals).Pairwise fun x y => x.2.Precedes y.2 ∨ y.2.Precedes x.2 :=
    (codeList_pairwise bits vals 1 0).imp Or.inl
  have : Std.Symm fun x y : Nat × HuffCode => x.2.Precedes y.2 ∨ y.2.Precedes x.2 :=
    ⟨fun _ _ => Or.symm⟩
  obtain h | h := horder.forall (buildTable_mem hok ha) (buildTable_mem hok hb)
    (mt (congrArg Prod.fst) hne)
  · exact (h.not_prefix hcodeA hcodeB).1
  · exact (h.not_prefix hcodeB hcodeA).2

end

/-! ### The two tables of a configuration -/

theorem mem_dcSymbols {c : Nat} : c ∈ dcSymbols ↔ c ≤ 11 := by
  rw [dcSymbols, List.mem_range, Nat.lt_succ_iff]

theorem mem_acSymbols {sym : Nat} : sym ∈ acSymbols ↔ sym = 0x00 ∨ sym = 0xF0 ∨
    ∃ r c : Nat, r < 16 ∧ 1 ≤ c ∧ c ≤ 10 ∧ sym = r * 16 + c := by
  simp only [acSymbols, List.mem_cons, List.mem_flatMap, List.mem_map, List.mem_range]
  refine or_congr_right (or_congr_right ⟨?_, ?_⟩)
  · rintro ⟨r, hr, c, hc, rfl⟩
    exact ⟨r, c + 1, hr, by omega, by omega, rfl⟩
  · rintro ⟨r, c, hr, hpos, hc, rfl⟩
    exact ⟨r, hr, c - 1, by omega, by omega⟩

theorem huffmanOk_of_wellFormed {cfg : Config} (h : cfg.WellFormed = true) :
    huffmanOk 16 dcSymbols cfg.bitsDC cfg.huffvalDC = true ∧
      huffmanOk 256 acSymbols cfg.bitsAC cfg.huffvalAC = true := by
  simp only [Config.WellFormed, Config.huffmanOk, Bool.and_eq_true] at h
  obtain ⟨⟨-, htables⟩, -⟩ := h
  exact htables

/-- Settles O33: a symbol that can be looked up is one of the assignments. -/
theorem lookedUpSymbolsHaveCodes : Obligations.LookedUpSymbolsHaveCodes := by
  intro cfg hwf
  obtain ⟨hdc, hac⟩ := huffmanOk_of_wellFormed hwf
  exact ⟨fun c hc => buildTable_fits hdc (mem_dcSymbols.mpr hc),
    fun sym hsym => buildTable_fits hac (mem_acSymbols.mpr hsym)⟩

/-- Settles O34: the assignments of each table are made in increasing order. -/
theorem huffmanCodesPrefixFree : Obligations.HuffmanCodesPrefixFree := by
  intro cfg hwf
  obtain ⟨hdc, hac⟩ := huffmanOk_of_wellFormed hwf
  exact ⟨fun _ ha _ hb => buildTable_prefixFree hdc ha hb,
    fun _ ha _ hb => buildTable_prefixFree hac ha hb⟩

/-- Settles O37: R207's assignment run on the lists of R205 and R206. -/
theorem defaultTableCodes : Obligations.DefaultTableCodes := by
  unfold Obligations.DefaultTableCodes
  decide +kernel

end Sys2Proof.Machine
end

section
/-!
The bit string of a block that passes the check: its length, and that it determines the block and where
the block ends (44_entropy.md R194, R200 to R202, R208).
-/

namespace Sys2Proof.Machine

/-- The symbol of a nonzero coefficient that passes the check is one of the AC symbols (R201 (e)). -/
theorem runCategory_mem_acSymbols (r : Nat) {v : Int} (hv : v ≠ 0) (hcat : cat v ≤ 10) :
    r % 16 * 16 + cat v ∈ acSymbols :=
  mem_acSymbols.mpr (.inr (.inr ⟨r % 16, cat v, Nat.mod_lt r (by decide), cat_pos hv, hcat, rfl⟩))

/-- That symbol is neither EOB nor ZRL: its category is 1 to 10. -/
theorem runCategory_ne {r : Nat} {v : Int} (hv : v ≠ 0) (hcat : cat v ≤ 10) :
    r % 16 * 16 + cat v ≠ 0x00 ∧ r % 16 * 16 + cat v ≠ 0xF0 := by
  have hpos := cat_pos hv
  omega

theorem eob_mem_acSymbols : 0x00 ∈ acSymbols := mem_acSymbols.mpr (.inl rfl)

theorem zrl_mem_acSymbols : 0xF0 ∈ acSymbols := mem_acSymbols.mpr (.inr (.inl rfl))

/-- What a block that passes the check looks like to the coder (R199). -/
theorem cat_le_of_entropyCheck {z : Fin 64 → Int} {prevDC : Int} (h : entropyCheck z prevDC = none) :
    cat (dcDiff z prevDC) ≤ 11 ∧ ∀ v ∈ acList z, cat v ≤ 10 := by
  obtain ⟨-, -, hnone⟩ := entropyCheckOutcomes z prevDC
  obtain ⟨hdc, hac⟩ := hnone.mp h
  refine ⟨hdc, fun v hv => ?_⟩
  obtain ⟨k, rfl⟩ := mem_acList.mp hv
  exact hac k.succ (Fin.succ_ne_zero k)

/-! ### The number of bits -/

@[simp] theorem HuffCode.bits_length (h : HuffCode) : h.bits.length = h.len := codeBits_length _ _

theorem len_le_foldl_max (table : Nat → HuffCode) : ∀ (symbols : List Nat) (m : Nat),
    m ≤ symbols.foldl (fun m s => max m (table s).len) m ∧
      ∀ s ∈ symbols, (table s).len ≤ symbols.foldl (fun m s => max m (table s).len) m
  | [], m => ⟨le_rfl, by simp⟩
  | t :: symbols, m => by
    obtain ⟨hm, hall⟩ := len_le_foldl_max table symbols (max m (table t).len)
    refine ⟨(le_max_left _ _).trans hm, fun s hs => ?_⟩
    obtain rfl | hs := List.mem_cons.mp hs
    · exact (le_max_right _ _).trans hm
    · exact hall s hs

theorem len_le_longestCode {table : Nat → HuffCode} {symbols : List Nat} {s : Nat} (h : s ∈ symbols) :
    (table s).len ≤ longestCode table symbols := (len_le_foldl_max table symbols 0).2 s h

@[simp] theorem zrlBits_length (cfg : Config) (n : Nat) :
    (zrlBits cfg n).length = n * (cfg.achuf 0xF0).len := by
  simp [zrlBits]

/-- Each position of the scan, those counted before it included, costs at most one longest code and ten
value bits: a ZRL takes 16 positions and an EOB at least one (R202). -/
theorem acBits_length_le (cfg : Config) : ∀ (l : List Int) (r : Nat), (∀ v ∈ l, cat v ≤ 10) →
    (acBits cfg r l).length ≤ (r + l.length) * (longestCode cfg.achuf acSymbols + 10)
  | [], 0, _ => by simp
  | [], r + 1, _ => by
    have heob := len_le_longestCode (table := cfg.achuf) eob_mem_acSymbols
    rw [acBits_nil_of_pos cfg r.succ_pos, HuffCode.bits_length]
    exact (heob.trans (Nat.le_add_right _ 10)).trans (Nat.le_mul_of_pos_left _ r.succ_pos)
  | v :: l, r, h => by
    obtain ⟨hcat, hl⟩ := List.forall_mem_cons.mp h
    by_cases hv : v = 0
    · rw [hv, acBits_zero_cons, List.length_cons, Nat.add_comm l.length, ← Nat.add_assoc]
      exact acBits_length_le cfg l (r + 1) hl
    · have hzrl := len_le_longestCode (table := cfg.achuf) zrl_mem_acSymbols
      have hsym := len_le_longestCode (table := cfg.achuf) (runCategory_mem_acSymbols r hv hcat)
      have hrest := acBits_length_le cfg l 0 hl
      have hrun : r / 16 * (cfg.achuf 0xF0).len ≤ r * (longestCode cfg.achuf acSymbols + 10) :=
        Nat.mul_le_mul (Nat.div_le_self r 16) (hzrl.trans (Nat.le_add_right _ 10))
      rw [acBits_cons_of_ne cfg r hv]
      simp only [acCoefBits, List.length_append, zrlBits_length, HuffCode.bits_length, valueBits_length,
        List.length_cons]
      linarith

theorem longestCode_core : longestCode Config.core.dchuf dcSymbols = 9 ∧
    longestCode Config.core.achuf acSymbols = 16 := by
  decide +kernel

/-- Settles O36: the DC part has at most one longest code and eleven value bits, and the scan is of 63
positions. -/
theorem blockBitsBounded : Obligations.BlockBitsBounded := by
  refine ⟨by rw [blockBitsBound, longestCode_core.1, longestCode_core.2], fun cfg z prevDC hcheck => ?_⟩
  obtain ⟨hdc, hac⟩ := cat_le_of_entropyCheck hcheck
  have hcode := len_le_longestCode (table := cfg.dchuf) (mem_dcSymbols.mpr hdc)
  have hscan := acBits_length_le cfg (acList z) 0 hac
  rw [acList_length, Nat.zero_add] at hscan
  simp only [blockBits, dcBits, List.length_append, HuffCode.bits_length, valueBits_length, blockBitsBound]
  omega

/-! ### Reading the bits of a block -/

/-- No code of a table that can be looked up begins another one (R208). -/
def PrefixFree (table : Nat → HuffCode) (symbols : List Nat) : Prop :=
  ∀ a ∈ symbols, ∀ b ∈ symbols, a ≠ b → ¬ (table a).bits <+: (table b).bits

/-- The code at the head of a bit string tells its symbol and where it ends. -/
theorem PrefixFree.code_append_inj {table : Nat → HuffCode} {symbols : List Nat}
    (hpf : PrefixFree table symbols) {a b : Nat} (ha : a ∈ symbols) (hb : b ∈ symbols) {x y : List Bool}
    (h : (table a).bits ++ x = (table b).bits ++ y) : a = b ∧ x = y := by
  have hab : a = b := by
    by_contra hne
    obtain hp | hp := List.prefix_or_prefix_of_prefix (List.prefix_append _ x) (h ▸ List.prefix_append _ y)
    · exact hpf a ha b hb hne hp
    · exact hpf b hb a ha (Ne.symm hne) hp
  subst hab
  exact ⟨rfl, List.append_cancel_left h⟩

/-- The value bits after a known category tell the value and where they end (R194). -/
theorem valueBits_append_inj {v w : Int} (hcat : cat v = cat w) {x y : List Bool}
    (h : valueBits v ++ x = valueBits w ++ y) : v = w ∧ x = y := by
  obtain ⟨hbits, hrest⟩ := List.append_inj h (by simp [hcat])
  exact ⟨eq_of_valueBits_eq hcat hbits, hrest⟩

section
variable {cfg : Config} (hpf : PrefixFree cfg.achuf acSymbols)

@[simp] theorem zrlBits_zero : zrlBits cfg 0 = [] := rfl

theorem zrlBits_succ (n : Nat) : zrlBits cfg (n + 1) = (cfg.achuf 0xF0).bits ++ zrlBits cfg n := rfl

/-- A run and its coefficient as they are read: ZRLs, a symbol, value bits, what follows. -/
theorem acBits_run_cons_append (r : Nat) {v : Int} (hv : v ≠ 0) (rest : List Int) (x : List Bool) :
    acBits cfg 0 (List.replicate r 0 ++ v :: rest) ++ x = zrlBits cfg (r / 16) ++
      ((cfg.achuf (r % 16 * 16 + cat v)).bits ++ (valueBits v ++ (acBits cfg 0 rest ++ x))) := by
  rw [acBits_run_cons cfg r hv, acCoefBits]
  simp only [List.append_assoc]

include hpf

/-- A run of ZRLs ends at the first other symbol. -/
theorem zrlBits_append_inj {s t : Nat} (hs : s ∈ acSymbols) (ht : t ∈ acSymbols) (hsz : s ≠ 0xF0)
    (htz : t ≠ 0xF0) {x y : List Bool} : ∀ {m n : Nat},
    zrlBits cfg m ++ ((cfg.achuf s).bits ++ x) = zrlBits cfg n ++ ((cfg.achuf t).bits ++ y) →
      m = n ∧ s = t ∧ x = y
  | 0, 0, h => ⟨rfl, hpf.code_append_inj hs ht h⟩
  | 0, n + 1, h => by
    rw [zrlBits_succ, List.append_assoc] at h
    exact absurd (hpf.code_append_inj hs zrl_mem_acSymbols h).1 hsz
  | m + 1, 0, h => by
    rw [zrlBits_succ, List.append_assoc] at h
    exact absurd (hpf.code_append_inj zrl_mem_acSymbols ht h).1.symm htz
  | m + 1, n + 1, h => by
    rw [zrlBits_succ, zrlBits_succ, List.append_assoc, List.append_assoc] at h
    obtain ⟨rfl, hrest⟩ := zrlBits_append_inj hs ht hsz htz (List.append_cancel_left h)
    exact ⟨rfl, hrest⟩

end

/-- A list of coefficients is a run of zeros, or a run of zeros before a nonzero value and the rest. -/
inductive ZeroRun : List Int → Prop where
  | trailing (r : Nat) : ZeroRun (List.replicate r 0)
  | before (r : Nat) {v : Int} (hv : v ≠ 0) (rest : List Int) : ZeroRun (List.replicate r 0 ++ v :: rest)

theorem zeroRun : ∀ l : List Int, ZeroRun l
  | [] => .trailing 0
  | v :: l => by
    by_cases hv : v = 0
    · subst hv
      cases zeroRun l with
      | trailing r => exact .trailing (r + 1)
      | before r hw rest => exact .before (r + 1) hw rest
    · exact .before 0 hv l

section
variable {cfg : Config} (hpf : PrefixFree cfg.achuf acSymbols)

include hpf

/-- The symbols of a nonzero coefficient tell its run and its value, and where they end. -/
theorem acCoef_append_inj {r k : Nat} {v w : Int} (hv : v ≠ 0) (hw : w ≠ 0) (hcv : cat v ≤ 10)
    (hcw : cat w ≤ 10) {x y : List Bool}
    (h : zrlBits cfg (r / 16) ++ ((cfg.achuf (r % 16 * 16 + cat v)).bits ++ (valueBits v ++ x)) =
      zrlBits cfg (k / 16) ++ ((cfg.achuf (k % 16 * 16 + cat w)).bits ++ (valueBits w ++ y))) :
    r = k ∧ v = w ∧ x = y := by
  obtain ⟨hdiv, hsym, hrest⟩ := zrlBits_append_inj hpf (runCategory_mem_acSymbols r hv hcv)
    (runCategory_mem_acSymbols k hw hcw) (runCategory_ne hv hcv).2 (runCategory_ne hw hcw).2 h
  exact ⟨by omega, valueBits_append_inj (by omega) hrest⟩

/-- EOB is not read as the start of a coefficient. -/
theorem eob_ne_acCoef {r k : Nat} {w : Int} (hw : w ≠ 0) (hcw : cat w ≤ 10) (hr : 0 < r)
    {x y : List Bool} :
    acBits cfg 0 (List.replicate r 0) ++ x ≠
      zrlBits cfg (k / 16) ++ ((cfg.achuf (k % 16 * 16 + cat w)).bits ++ y) := by
  intro h
  rw [acBits_replicate, if_neg hr.ne'] at h
  obtain ⟨-, hsym, -⟩ := zrlBits_append_inj (m := 0) hpf eob_mem_acSymbols
    (runCategory_mem_acSymbols k hw hcw) (by decide) (runCategory_ne hw hcw).2 h
  exact (runCategory_ne hw hcw).1 hsym.symm

/-- The scan's bits determine as many coefficients as it has, and where they end. -/
theorem acBits_append_inj {y z : List Int} (hlen : y.length = z.length) (hy : ∀ v ∈ y, cat v ≤ 10)
    (hz : ∀ v ∈ z, cat v ≤ 10) {x x' : List Bool} (h : acBits cfg 0 y ++ x = acBits cfg 0 z ++ x') :
    y = z ∧ x = x' := by
  cases zeroRun y with
  | trailing r =>
    cases zeroRun z with
    | trailing k =>
      obtain rfl : r = k := by simpa using hlen
      exact ⟨rfl, List.append_cancel_left h⟩
    | before k hw rest =>
      have hcw := hz _ (List.mem_append_right _ List.mem_cons_self)
      simp only [List.length_replicate, List.length_append, List.length_cons] at hlen
      rw [acBits_run_cons_append k hw] at h
      exact absurd h (eob_ne_acCoef hpf hw hcw (by omega))
  | before r hv rest =>
    have hcv := hy _ (List.mem_append_right _ List.mem_cons_self)
    cases zeroRun z with
    | trailing k =>
      simp only [List.length_replicate, List.length_append, List.length_cons] at hlen
      rw [acBits_run_cons_append r hv] at h
      exact absurd h.symm (eob_ne_acCoef hpf hv hcv (by omega))
    | before k hw rest' =>
      have hcw := hz _ (List.mem_append_right _ List.mem_cons_self)
      rw [acBits_run_cons_append r hv, acBits_run_cons_append k hw] at h
      obtain ⟨rfl, rfl, hrest⟩ := acCoef_append_inj hpf hv hw hcv hcw h
      obtain ⟨rfl, hafter⟩ := acBits_append_inj (by simpa using hlen)
        (fun u hu => hy u (List.mem_append_right _ (List.mem_cons_of_mem _ hu)))
        (fun u hu => hz u (List.mem_append_right _ (List.mem_cons_of_mem _ hu))) hrest
      exact ⟨rfl, hafter⟩
termination_by y.length

end

/-- A block is its DC difference and its AC coefficients. -/
theorem block_ext {y z : Fin 64 → Int} {prevDC : Int} (hdc : dcDiff y prevDC = dcDiff z prevDC)
    (hac : acList y = acList z) : y = z := by
  rw [acList_eq_ofFn, acList_eq_ofFn] at hac
  have htail := List.ofFn_injective hac
  funext k
  refine Fin.cases ?_ (fun i => congrFun htail i) k
  rw [dcDiff_eq, dcDiff_eq] at hdc
  omega

/-- Settles O35: each code and each string of value bits says where it ends, so the bits are read from
left to right in one way. -/
theorem blockBitsUniquelyDecodable : Obligations.BlockBitsUniquelyDecodable := by
  intro cfg y z prevDC afterY afterZ hwf hy hz h
  obtain ⟨hpfDC, hpfAC⟩ := huffmanCodesPrefixFree cfg hwf
  obtain ⟨hdcY, hacY⟩ := cat_le_of_entropyCheck hy
  obtain ⟨hdcZ, hacZ⟩ := cat_le_of_entropyCheck hz
  simp only [blockBits, dcBits, List.append_assoc] at h
  obtain ⟨hcat, hvalue⟩ := PrefixFree.code_append_inj hpfDC (mem_dcSymbols.mpr hdcY)
    (mem_dcSymbols.mpr hdcZ) h
  obtain ⟨hdiff, hscan⟩ := valueBits_append_inj hcat hvalue
  obtain ⟨hlist, hafter⟩ := acBits_append_inj hpfAC (by rw [acList_length, acList_length]) hacY hacZ hscan
  exact ⟨block_ext hdiff hlist, hafter⟩

end Sys2Proof.Machine
end

section
/-!
The packer as a writer of the logical bitstream: what one bit does to the pending bits, the bytes that
bits and commands complete, and the whole-code packer beside it (45_bitpacker.md R241 to R250;
70_reset_and_hazards.md R346).
-/

namespace Sys2Proof.Machine

/-! ### One byte -/

theorem stuffed_ff : stuffed 0xFF = [0xFF, 0x00] := rfl

theorem stuffed_of_ne {b : Byte} (h : b ≠ 0xFF) : stuffed b = [b] := if_neg h

theorem stuffed_length_le (b : Byte) : (stuffed b).length ≤ 2 := by
  by_cases h : b = 0xFF
  · rw [h, stuffed_ff]
    rfl
  · rw [stuffed_of_ne h]
    exact Nat.le_succ 1

/-- Settles O25, by the two forms of a stuffed byte. -/
theorem emitByteStuffsFF : Obligations.EmitByteStuffsFF := by
  refine fun b s => ⟨?_, fun h => ?_⟩
  · rintro rfl
    rw [emitByte, stuffed_ff, BitVec.add_assoc]
    rfl
  · rw [emitByte, stuffed_of_ne h]
    rfl

/-- Stuffing is undone byte by byte (R250). -/
theorem unstuff_stuffed_append (b : Byte) (rest : List Byte) :
    unstuff (stuffed b ++ rest) = b :: unstuff rest := by
  by_cases h : b = 0xFF
  · rw [h, stuffed_ff]
    rfl
  · rw [stuffed_of_ne h]
    cases rest with
    | nil => rfl
    | cons c rest => exact if_neg fun hbc => h hbc.1

theorem unstuff_flatMap_stuffed (data : List Byte) : unstuff (data.flatMap stuffed) = data := by
  induction data with
  | nil => rfl
  | cons b data ih => rw [List.flatMap_cons, unstuff_stuffed_append, ih]

theorem flatMap_stuffed_length_le (data : List Byte) :
    (data.flatMap stuffed).length ≤ 2 * data.length := by
  induction data with
  | nil => rfl
  | cons b data ih =>
    have hb := stuffed_length_le b
    rw [List.flatMap_cons, List.length_append, List.length_cons]
    omega

/-! ### Bit strings -/

theorem codeBits_mod (c : Nat) {m : Nat} : ∀ {L : Nat}, L ≤ m → codeBits (c % 2 ^ m) L = codeBits c L
  | 0, _ => rfl
  | L + 1, h => by
    rw [codeBits, codeBits, codeBits_mod c (Nat.le_of_succ_le h), Nat.testBit_mod_two_pow,
      decide_eq_true (Nat.lt_of_succ_le h), Bool.true_and]

/-- Shifting a bit in at the low end appends it to the bit string. -/
theorem codeBits_shift (c L : Nat) (b : Bool) :
    codeBits (2 * c + b.toNat) (L + 1) = codeBits c L ++ [b] := by
  have hdiv : (2 * c + b.toNat) / 2 ^ 1 = c := by
    have := b.toNat_le
    omega
  have hlow : (2 * c + b.toNat).testBit 0 = b := by cases b <;> simp
  rw [codeBits_add, hdiv, codeBits, hlow, codeBits_zero]

/-- One number's bits after another's are those of the two placed side by side. -/
theorem codeBits_append (a c m L : Nat) :
    codeBits (a * 2 ^ L + c % 2 ^ L) (m + L) = codeBits a m ++ codeBits c L := by
  have hdiv : (a * 2 ^ L + c % 2 ^ L) / 2 ^ L = a := by
    rw [Nat.mul_comm, Nat.mul_add_div (Nat.two_pow_pos L),
      Nat.div_eq_of_lt (Nat.mod_lt c (Nat.two_pow_pos L)), Nat.add_zero]
  have hmod : (a * 2 ^ L + c % 2 ^ L) % 2 ^ L = c % 2 ^ L := by
    rw [Nat.mul_add_mod_self_right, Nat.mod_mod]
  rw [codeBits_add, hdiv, ← codeBits_mod (a * 2 ^ L + c % 2 ^ L) le_rfl, hmod, codeBits_mod c le_rfl]

@[simp] theorem bytesBits_append (as bs : List Byte) : bytesBits (as ++ bs) = bytesBits as ++ bytesBits bs :=
  List.flatMap_append

@[simp] theorem bytesBits_length (data : List Byte) : (bytesBits data).length = 8 * data.length := by
  simp [bytesBits, Nat.mul_comm]

@[simp] theorem pendingBits_length (s : State) : (pendingBits s).length = s.pkN.val := codeBits_length _ _

/-! ### One bit -/

/-- The state with `n` bits pending, the low ones of `acc`: what the accumulator leaves when it is
drained (R248). -/
def holding (s : State) (n acc : Nat) : State :=
  { s with pkN := Fin.ofNat 8 n, pkBits := BitVec.ofNat 7 acc }

theorem holding_self (s : State) : holding s s.pkN.val s.pkBits.toNat = s := by
  simp [holding]

theorem holding_pkN (s : State) {n : Nat} (h : n ≤ 7) (acc : Nat) : (holding s n acc).pkN.val = n :=
  Nat.mod_eq_of_lt (Nat.lt_succ_of_le h)

theorem pendingBits_holding (s : State) {n : Nat} (h : n ≤ 7) (acc : Nat) :
    pendingBits (holding s n acc) = codeBits acc n := by
  rw [pendingBits, holding_pkN s h]
  exact codeBits_mod acc h

theorem shiftIn_eq_ofNat (bits : BitVec 7) (b : Bool) :
    shiftIn bits b = BitVec.ofNat 8 (2 * bits.toNat + b.toNat) := by
  rw [← shiftIn_toNat, BitVec.ofNat_toNat, BitVec.setWidth_eq]

/-- A bit that leaves fewer than 8 pending is shifted in (R242). -/
theorem packBit_of_lt {s : State} (h : s.pkN.val < 7) (b : Bool) :
    packBit s b = holding s (s.pkN.val + 1) (2 * s.pkBits.toNat + b.toNat) := by
  have hne : s.pkN ≠ 7 := fun h7 => by simp [h7] at h
  have hbits : (shiftIn s.pkBits b).setWidth 7 = BitVec.ofNat 7 (2 * s.pkBits.toNat + b.toNat) := by
    rw [shiftIn_eq_ofNat, BitVec.setWidth_ofNat_of_le (by decide)]
  rw [packBit, if_neg hne, hbits]
  rfl

/-- The eighth pending bit completes a byte (R242, R243). -/
theorem packBit_of_full {s : State} (h : s.pkN = 7) (b : Bool) :
    packBit s b = emitByte (BitVec.ofNat 8 (2 * s.pkBits.toNat + b.toNat)) (holding s 0 0) := by
  rw [packBit, if_pos h, shiftIn_eq_ofNat]
  rfl

/-! ### The logical bitstream -/

/-- From `s` to `t` whole bytes were completed and pushed with their stuffing, and they and the bits
pending in `t` are the bits pending in `s` followed by `bits` (R241, R243). -/
def Completes (s t : State) (bits : List Bool) : Prop :=
  ∃ data : List Byte, t.outq = s.outq ++ data.flatMap stuffed ∧
    bytesBits data ++ pendingBits t = pendingBits s ++ bits

theorem Completes.trans {s t u : State} {as bs : List Bool} (h1 : Completes s t as)
    (h2 : Completes t u bs) : Completes s u (as ++ bs) := by
  obtain ⟨p, hpout, hpbits⟩ := h1
  obtain ⟨q, hqout, hqbits⟩ := h2
  refine ⟨p ++ q, by rw [hqout, hpout, List.flatMap_append, List.append_assoc], ?_⟩
  rw [bytesBits_append, List.append_assoc, hqbits, ← List.append_assoc, hpbits, List.append_assoc]

theorem packBit_completes (s : State) (b : Bool) : Completes s (packBit s b) [b] := by
  by_cases h : s.pkN = 7
  · rw [packBit_of_full h]
    refine ⟨[BitVec.ofNat 8 (2 * s.pkBits.toNat + b.toNat)], by simp [holding], ?_⟩
    have hpend : pendingBits (holding s 0 0) = [] := pendingBits_holding s (Nat.zero_le 7) 0
    have hn : s.pkN.val = 7 := congrArg Fin.val h
    calc bytesBits [BitVec.ofNat 8 (2 * s.pkBits.toNat + b.toNat)] ++ pendingBits (holding s 0 0)
        = codeBits (2 * s.pkBits.toNat + b.toNat) 8 := by
          rw [hpend, List.append_nil, bytesBits, List.flatMap_singleton, BitVec.toNat_ofNat,
            codeBits_mod _ le_rfl]
      _ = pendingBits s ++ [b] := by rw [codeBits_shift, pendingBits, hn]
  · have hlt : s.pkN.val < 7 := by omega
    rw [packBit_of_lt hlt]
    refine ⟨[], by simp [holding], ?_⟩
    rw [pendingBits_holding s hlt, codeBits_shift]
    rfl

theorem packBits_completes (s : State) (bs : List Bool) : Completes s (packBits s bs) bs := by
  induction bs generalizing s with
  | nil => exact ⟨[], by simp, by simp [bytesBits]⟩
  | cons b bs ih => exact (packBit_completes s b).trans (ih _)

theorem packBits_append (s : State) (as bs : List Bool) :
    packBits s (as ++ bs) = packBits (packBits s as) bs := List.foldl_append

/-- Settles O22: the bytes completed are pushed with their stuffing, and counted. -/
theorem packerKeepsLogicalBitstream : Obligations.PackerKeepsLogicalBitstream := by
  intro s bs cs hok
  obtain ⟨data, hout, hbits⟩ := packBits_completes s bs
  obtain ⟨pushed, hstuffed, hpushed, hcount⟩ := packBits_pushes s bs
  obtain rfl : pushed = data.flatMap stuffed := List.append_cancel_left (hpushed.symm.trans hout)
  have hframe : packBits s bs = { s with
      pkN := (packBits s bs).pkN, pkBits := (packBits s bs).pkBits
      byteCount := (packBits s bs).byteCount, outq := (packBits s bs).outq } := packBits_frame s bs
  rw [hout, hcount] at hframe
  refine ⟨packBits_append s bs cs, packBits_packerOk hok bs, _, hstuffed, hframe, ?_⟩
  rw [unstuff_flatMap_stuffed, hbits]

/-! ### The accumulator -/

/-- Bits that complete no byte are only shifted in. -/
theorem packBits_holding (s : State) : ∀ {bs : List Bool} {n : Nat} (acc : Nat), n + bs.length ≤ 7 →
    packBits (holding s n acc) bs =
      holding s (n + bs.length) (bs.foldl (fun a b => 2 * a + b.toNat) acc)
  | [], _, _, _ => rfl
  | b :: bs, n, acc, h => by
    rw [List.length_cons] at h
    have hn := holding_pkN s (n := n) (by omega) acc
    have hacc : BitVec.ofNat 7 (2 * (BitVec.ofNat 7 acc).toNat + b.toNat) =
        BitVec.ofNat 7 (2 * acc + b.toNat) := by
      rw [BitVec.ofNat_add, BitVec.ofNat_mul, BitVec.ofNat_toNat, BitVec.setWidth_eq,
        ← BitVec.ofNat_mul, ← BitVec.ofNat_add]
    have hbit : packBit (holding s n acc) b = holding s (n + 1) (2 * acc + b.toNat) := by
      rw [packBit_of_lt (by omega), hn, holding, holding, holding, hacc]
    rw [packBits_cons, hbit, packBits_holding s _ (by omega), List.foldl_cons, List.length_cons,
      Nat.add_right_comm, Nat.add_assoc]

theorem packBits_codeBits_of_le (s : State) {n acc : Nat} (hn : n ≤ 7) (h : acc < 2 ^ n) :
    packBits (holding s 0 0) (codeBits acc n) = holding s n acc := by
  rw [packBits_holding s 0 (by simpa using hn), foldl_codeBits, codeBits_length, Nat.zero_mul,
    Nat.zero_add, Nat.zero_add, Nat.mod_eq_of_lt h]

theorem packBits_pendingBits {s : State} (h : packerOk s = true) :
    packBits (holding s 0 0) (pendingBits s) = s := by
  rw [pendingBits, packBits_codeBits_of_le s (Nat.le_of_lt_succ s.pkN.isLt) (packerOk_iff.mp h),
    holding_self]

/-- Eight bits into an empty packer are one byte. -/
theorem packBits_byte (s : State) {c : Nat} (h : c < 2 ^ 8) :
    packBits (holding s 0 0) (codeBits c 8) = emitByte (BitVec.ofNat 8 c) (holding s 0 0) := by
  have hc : 2 * (c / 2) + (c.testBit 0).toNat = c := by
    rw [Nat.toNat_testBit]
    omega
  have hbits : (holding s 7 (c / 2)).pkBits.toNat = c / 2 := Nat.mod_eq_of_lt (by omega)
  calc packBits (holding s 0 0) (codeBits c 8)
      = packBit (holding s 7 (c / 2)) (c.testBit 0) := by
        rw [← hc, codeBits_shift, packBits_append, packBits_codeBits_of_le s le_rfl (by omega), hc]
        rfl
    _ = emitByte (BitVec.ofNat 8 c) (holding s 0 0) := by
        rw [packBit_of_full rfl, hbits, hc]
        rfl

theorem accDrain_eq_packBits : ∀ {fuel n acc : Nat} (s : State), n < 8 * fuel → acc < 2 ^ n →
    accDrain fuel n acc s = packBits (holding s 0 0) (codeBits acc n)
  | 0, n, _, _, hfuel, _ => absurd hfuel (Nat.not_lt_zero n)
  | fuel + 1, n, acc, s, hfuel, hacc => by
    rw [accDrain]
    split
    · next hn =>
      obtain ⟨m, rfl⟩ := Nat.exists_eq_add_of_le hn
      have hdiv : acc / 2 ^ m < 2 ^ 8 := Nat.div_lt_of_lt_mul (by rwa [← Nat.pow_add, Nat.add_comm])
      rw [Nat.add_sub_cancel_left, accDrain_eq_packBits _ (by omega) (Nat.mod_lt _ (Nat.two_pow_pos m)),
        codeBits_mod _ le_rfl, codeBits_add, packBits_append, packBits_byte s hdiv]
      rfl
    · next hn => exact (packBits_codeBits_of_le s (by omega) hacc).symm

/-- Settles O23: the accumulator holds the pending bits and the code's, and draining it writes them into
an empty packer; the first of them give the pending bits back. -/
theorem accumulatorWidthUnobservable : Obligations.AccumulatorWidthUnobservable := by
  intro width c L s hok hwidth
  have hpk := packerOk_iff.mp hok
  have hlow : c % 2 ^ L < 2 ^ L := Nat.mod_lt _ (Nat.two_pow_pos L)
  have hacc : s.pkBits.toNat * 2 ^ L + c % 2 ^ L < 2 ^ (s.pkN.val + L) :=
    calc s.pkBits.toNat * 2 ^ L + c % 2 ^ L
        < s.pkBits.toNat * 2 ^ L + 2 ^ L := Nat.add_lt_add_left hlow _
      _ = (s.pkBits.toNat + 1) * 2 ^ L := (Nat.succ_mul _ _).symm
      _ ≤ 2 ^ s.pkN.val * 2 ^ L := Nat.mul_le_mul_right _ hpk
      _ = 2 ^ (s.pkN.val + L) := (Nat.pow_add 2 _ _).symm
  have hfit : s.pkBits.toNat * 2 ^ L + c % 2 ^ L < 2 ^ width :=
    hacc.trans_le (Nat.pow_le_pow_right (by decide) (by omega))
  rw [accWrite, Nat.mod_eq_of_lt hfit, accDrain_eq_packBits s (by omega) hacc, codeBits_append,
    packBits_append]
  exact congrArg (packBits · (codeBits c L)) (packBits_pendingBits hok)

/-! ### How much a command completes -/

/-- At most `n` bytes were completed, and pushed with their stuffing (R244). -/
def CompletesAtMost (n : Nat) (s t : State) : Prop :=
  ∃ data : List Byte, data.length ≤ n ∧ t.outq = s.outq ++ data.flatMap stuffed

theorem completesAtMost_of_eq {n : Nat} {s t : State} (h : t.outq = s.outq) : CompletesAtMost n s t :=
  ⟨[], Nat.zero_le n, by simp [h]⟩

theorem CompletesAtMost.mono {m n : Nat} {s t : State} (h : CompletesAtMost m s t) (hle : m ≤ n) :
    CompletesAtMost n s t := by
  obtain ⟨data, hlen, hout⟩ := h
  exact ⟨data, hlen.trans hle, hout⟩

/-- A byte is completed for every eight bits pending or written. -/
theorem packBits_completesAtMost (s : State) (bs : List Bool) :
    CompletesAtMost ((s.pkN.val + bs.length) / 8) s (packBits s bs) := by
  obtain ⟨data, hout, hbits⟩ := packBits_completes s bs
  have hlen := congrArg List.length hbits
  simp only [List.length_append, bytesBits_length, pendingBits_length] at hlen
  exact ⟨data, by omega, hout⟩

theorem packFlush_completesAtMost (s : State) : CompletesAtMost 1 s (packFlush s) := by
  unfold packFlush
  split
  · exact completesAtMost_of_eq rfl
  · exact ⟨[paddedByte s], le_rfl, by simp⟩

/-- An element's command completes bytes only when it writes a block that has passed the check, whose
bits are bounded (R202). -/
theorem doWrite_completesAtMost (cfg : Config) (k : BlockKind) (d : Data) (s : State) :
    CompletesAtMost (blockByteBound cfg) s (doWrite cfg k d s) := by
  obtain ⟨-, h⟩ | ⟨-, -, -, h⟩ | ⟨-, -, -, b, e, -, -, h⟩ | ⟨-, -, -, b, rfl, hcheck, h⟩ | ⟨-, -, -, h⟩ :=
    doWrite_cases cfg k d s <;> rw [h]
  · exact completesAtMost_of_eq rfl
  · exact completesAtMost_of_eq rfl
  · exact completesAtMost_of_eq rfl
  · have hbits := blockBitsBounded.2 cfg _ _ hcheck
    have hpk := (storeElement k d s).pkN.isLt
    exact (packBits_completesAtMost (storeElement k d s) _).mono
      (Nat.div_le_div_right (Nat.add_le_add (Nat.le_of_lt_succ hpk) hbits))
  · exact completesAtMost_of_eq rfl

theorem doFlush_completesAtMost (s : State) : CompletesAtMost 1 s (doFlush s) := by
  obtain ⟨-, h⟩ | ⟨-, -, h⟩ | ⟨-, -, -, h⟩ | ⟨-, -, -, h⟩ := doFlush_cases s <;> rw [h]
  · exact completesAtMost_of_eq rfl
  · exact completesAtMost_of_eq rfl
  · exact completesAtMost_of_eq rfl
  · exact packFlush_completesAtMost s

theorem CompletesAtMost.unlessError {n : Nat} {s t : State} (h : CompletesAtMost n s t) :
    CompletesAtMost n s (unlessError s t) := by
  by_cases herr : s.st = .error
  · rw [unlessError_of_error herr]
    exact completesAtMost_of_eq rfl
  · rwa [unlessError_of_ne herr]

theorem blockByteBound_core : blockByteBound Config.core = 208 := by
  rw [blockByteBound, blockBitsBounded.1]

theorem nextState_completesAtMost (i : Instr) (s : State) :
    CompletesAtMost (blockByteBound Config.core) s (nextState i s) := by
  cases i with
  | nop => exact completesAtMost_of_eq rfl
  | start => exact completesAtMost_of_eq rfl
  | sample d => exact (doWrite_completesAtMost Config.core .sample d s).unlessError
  | coef d => exact (doWrite_completesAtMost Config.core .coef d s).unlessError
  | flush =>
    exact (doFlush_completesAtMost s).unlessError.mono (by rw [blockByteBound_core]; decide)

/-- A command other than START writes at most one element, or is the element that ends a block (R113). -/
theorem CommandEffect.progress {s t : State} {o : Option Instr} (h : CommandEffect s o t)
    (ho : o ≠ some .start) :
    (t.blockCount = s.blockCount ∧ t.fill.val ≤ s.fill.val + 1) ∨
    (s.fill.val + 1 = blockTransfers ∧ t.fill = 0 ∧ t.blockCount = s.blockCount + 1 ∧
      ∃ k d, o = some (elementInstr k d)) := by
  cases h with
  | started => exact absurd rfl ho
  | nop => exact .inl ⟨rfl, Nat.le_succ _⟩
  | ignored => exact .inl ⟨rfl, Nat.le_succ _⟩
  | raised => exact .inl ⟨rfl, Nat.zero_le _⟩
  | stored k d _ hfill =>
    exact .inl ⟨rfl, (Fin.val_add_one_of_lt (Fin.lt_last_iff_ne_last.mpr hfill)).le⟩
  | encoded k d dc bits _ hfill =>
    refine .inr ⟨by rw [hfill]; rfl, rfl, ?_, k, d, rfl⟩
    rw [closeBlock_blockCount, samePackerFrame_blockCount (packBits_frame (storeElement k d s) bits)]
    rfl
  | flushed =>
    have hcount := samePackerFrame_blockCount (packFlush_frame s)
    have hfill := samePackerFrame_fill (packFlush_frame s)
    exact .inl ⟨hcount, (congrArg Fin.val hfill).le.trans (Nat.le_succ _)⟩

/-- A step takes at most one of the words the host offers (R62). -/
theorem StepEffect.cmdq_length_le {s t : State} (h : StepEffect s t) :
    s.cmdq.length ≤ t.cmdq.length + 1 := by
  cases h with
  | reset => exact Nat.le_succ _
  | accepted hq => rw [afterCommand_cmdq, acceptState_cmdq, hq, List.length_cons]
  | passed => exact Nat.le_succ _
  | delivered => exact Nat.le_succ _

/-- Settles O24, from the bytes that bits and commands complete, the things a command and a step can do,
and the words of a block. -/
theorem packerOutputBound : Obligations.PackerOutputBound := by
  refine ⟨fun s bs => ?_, blockByteBound_core, ?_, rfl, fun i s t hexec => ?_, fun i s t hi hexec => ?_,
    fun cfg block words h => (blockWords_elements h).1, fun s t hstep => (step_effect hstep).cmdq_length_le⟩
  · obtain ⟨data, hlen, hout⟩ := packBits_completesAtMost s bs
    have hstuffed := flatMap_stuffed_length_le data
    rw [hout, List.length_append]
    omega
  · rw [blockOutputBound, blockByteBound_core]
  · obtain rfl := exec_next_iff.mp hexec
    obtain ⟨data, hlen, hout⟩ := nextState_completesAtMost i s
    refine ⟨data.flatMap stuffed, hout, by rwa [unstuff_flatMap_stuffed], ?_⟩
    exact (flatMap_stuffed_length_le data).trans (Nat.mul_le_mul_left 2 hlen)
  · obtain rfl := exec_next_iff.mp hexec
    obtain h | ⟨hfill, hzero, hcount, k, d, hk⟩ := (nextState_effect i s).progress (by simpa using hi)
    · exact .inl h
    · refine .inr ⟨hfill, hzero, hcount, d, ?_⟩
      obtain rfl := Option.some.inj hk
      cases k with
      | sample => exact .inl rfl
      | coef => exact .inr rfl

end Sys2Proof.Machine
end

section
/-!
What the host makes of a plane and of an image's bytes: the blocks of a segmented plane, and the file
around the scan (48_host_side.md R262 to R264, R267, R269 to R285).
-/

namespace Sys2Proof.Machine

/-! ### Segmentation -/

theorem mul_add_div_of_lt {w x : Nat} (h : x < w) (y : Nat) : (y * w + x) / w = y := by
  rw [Nat.mul_comm, Nat.mul_add_div (Nat.zero_lt_of_lt h), Nat.div_eq_of_lt h, Nat.add_zero]

/-- Rows of equal width, laid one after another: item `i` stands in row `i / w` at place `i % w`. -/
theorem flatMap_rows_eq_map {α : Type} (f : Nat → Nat → α) (w : Nat) : ∀ h : Nat,
    ((List.range h).flatMap fun y => (List.range w).map (f y)) =
      (List.range (h * w)).map fun i => f (i / w) (i % w)
  | 0 => by simp
  | h + 1 => by
    rw [List.range_succ, List.flatMap_append, flatMap_rows_eq_map f w h, Nat.succ_mul, List.range_add,
      List.map_append, List.flatMap_singleton, List.map_map]
    refine congrArg _ (List.map_congr_left fun x hx => ?_)
    have hxw := List.mem_range.mp hx
    rw [Function.comp_apply, mul_add_div_of_lt hxw, Nat.mul_add_mod_of_lt hxw]

theorem blocksAlong_of_mod {n : Nat} (h : n % 8 = 0) : blocksAlong n = n / 8 := by
  unfold blocksAlong
  omega

@[simp] theorem rowOf_natIndex (row col : Fin 8) : rowOf (natIndex row col) = row := by
  ext
  simp only [rowOf, natIndex]
  omega

@[simp] theorem colOf_natIndex (row col : Fin 8) : colOf (natIndex row col) = col := by
  ext
  simp only [colOf, natIndex]
  omega

section
variable {K : Type} {p p' : Plane K}

theorem Plane.segment_eq_map (p : Plane K) :
    p.segment = (List.range (blocksAlong p.height * blocksAlong p.width)).map fun i =>
      p.block (i % blocksAlong p.width) (i / blocksAlong p.width) :=
  flatMap_rows_eq_map (fun bY bx => p.block bx bY) _ _

theorem Plane.segment_length (p : Plane K) :
    p.segment.length = blocksAlong p.width * blocksAlong p.height := by
  rw [p.segment_eq_map, List.length_map, List.length_range, Nat.mul_comm]

theorem Plane.getElem?_segment {bx bY : Nat} (hx : bx < blocksAlong p.width)
    (hy : bY < blocksAlong p.height) :
    p.segment[bY * blocksAlong p.width + bx]? = some (p.block bx bY) := by
  have hdiv := mul_add_div_of_lt hx bY
  have hlt : bY * blocksAlong p.width + bx < blocksAlong p.height * blocksAlong p.width :=
    (Nat.div_lt_iff_lt_mul (by omega)).mp (hdiv.symm ▸ hy)
  rw [p.segment_eq_map, List.getElem?_map, List.getElem?_range hlt, Option.map_some, hdiv,
    Nat.mul_add_mod_of_lt hx]

theorem Plane.block_natIndex (bx bY : Nat) (x y : Fin 8) :
    p.block bx bY (natIndex y x) =
      p.sample (min (bx * 8 + x.val) (p.width - 1)) (min (bY * 8 + y.val) (p.height - 1)) := by
  rw [Plane.block, rowOf_natIndex, colOf_natIndex]

/-- The clamp keeps every sample a block reads inside the plane (R263). -/
theorem Plane.segment_congr (hw : p.width ≠ 0) (hh : p.height ≠ 0) (hw' : p'.width = p.width)
    (hh' : p'.height = p.height)
    (hs : ∀ X Y : Nat, X < p.width → Y < p.height → p'.sample X Y = p.sample X Y) :
    p'.segment = p.segment := by
  have hblock : p'.block = p.block := by
    funext bx bY i
    unfold Plane.block
    rw [hw', hh']
    exact hs _ _ (by omega) (by omega)
  rw [p'.segment_eq_map, p.segment_eq_map, hblock, hw', hh']

/-- A coordinate in a whole number of blocks is no later than the last valid one (R264). -/
theorem min_coordinate_of_mod {n b : Nat} (hn : n % 8 = 0) (hb : b < n / 8) (k : Fin 8) :
    min (b * 8 + k.val) (n - 1) = b * 8 + k.val := by
  omega

end

/-- Settles O57, from the places of the blocks in raster order and the clamp of a coordinate. -/
theorem segmentationClampsAtEdges : Obligations.SegmentationClampsAtEdges := by
  intro p p' hw hh hw' hh' hs
  refine ⟨p.segment_length, Plane.segment_congr hw hh hw' hh' hs, fun bx bY hx hy => ?_,
    fun hw8 hh8 => ⟨?_, fun bx bY hx hy x y => ?_⟩⟩
  · exact ⟨Plane.getElem?_segment hx hy, Plane.block_natIndex bx bY⟩
  · rw [p.segment_length, blocksAlong_of_mod hw8, blocksAlong_of_mod hh8]
  · rw [Plane.block_natIndex, min_coordinate_of_mod hw8 hx, min_coordinate_of_mod hh8 hy]

/-! ### The file of an image -/

@[simp] theorem bigEndian16_length (n : Nat) : (bigEndian16 n).length = 2 := rfl

@[simp] theorem wordBytes16_length (w : BitVec 16) : (wordBytes16 w).length = 2 := rfl

@[simp] theorem markerSegment_length (marker : Byte) (payload : List Byte) :
    (markerSegment marker payload).length = payload.length + 4 := by
  simp only [markerSegment, List.length_append, List.length_cons, List.length_nil, bigEndian16_length]
  omega

theorem app0Bytes_length (cfg : Config) : (app0Bytes cfg).length = 18 := by simp [app0Bytes]

theorem dqtBytes_length (cfg : Config) : (dqtBytes cfg).length = 69 := by simp [dqtBytes]

theorem sof0Bytes_length (width height : Nat) : (sof0Bytes width height).length = 13 := by
  simp [sof0Bytes]

theorem dhtBytes_length (classId : Byte) (bits vals : List Nat) :
    (dhtBytes classId bits vals).length = bits.length + vals.length + 5 := by
  simp [dhtBytes]

theorem sosBytes_length : sosBytes.length = 10 := by simp [sosBytes]

/-- With the symbol lists of R205 and R206 the head is 328 bytes, whatever the dimensions. -/
theorem containerHead_core_length (width height : Nat) :
    (containerHead Config.core width height).length = 328 := by
  have hdc : Config.core.bitsDC.length + Config.core.huffvalDC.length = 28 := by decide
  have hac : Config.core.bitsAC.length + Config.core.huffvalAC.length = 178 := by decide +kernel
  simp [containerHead, soiBytes, app0Bytes_length, dqtBytes_length, sof0Bytes_length, dhtBytes_length,
    sosBytes_length, hdc, hac]

theorem containerFile_core {width height : Nat} (hw : 1 ≤ width) (hw' : width ≤ 65535)
    (hh : 1 ≤ height) (hh' : height ≤ 65535) (scan : List Byte) :
    containerFile Config.core width height scan =
      some (containerHead Config.core width height ++ scan ++ eoiBytes) :=
  if_pos ⟨hw, hw', hh, hh', core_wellFormed⟩

/-- The host keeps the delivered bytes of an image that is DONE, and of no other (R267). -/
theorem imageReport_scan (status : Word) (delivered : List Byte) :
    (imageReport status delivered).scan =
      if status.extractLsb' 0 2 = ImageState.done.code then some delivered else none := by
  by_cases h : status.extractLsb' 0 2 = ImageState.done.code
  · rw [if_pos h]
    exact congrArg ImageReport.scan (if_pos h)
  · rw [if_neg h]
    refine (congrArg ImageReport.scan (if_neg h)).trans ?_
    split <;> rfl

/-- Settles O58, from the lengths of the segments and what the host keeps of an image. -/
theorem containerFramesScan : Obligations.ContainerFramesScan := by
  constructor
  · intro width height status delivered
    rw [imageFile, imageReport_scan]
    split <;> rfl
  · intro width height scan hw hw' hh hh'
    have hlen := containerHead_core_length width height
    refine ⟨_, containerFile_core hw hw' hh hh' scan, ?_, rfl, ?_, ?_⟩
    · simp only [List.length_append, hlen, eoiBytes, List.length_cons, List.length_nil]
      omega
    · rw [List.append_assoc, List.drop_left' hlen, List.take_left]
    · rw [List.drop_left' (by rw [List.length_append, hlen])]
      rfl

end Sys2Proof.Machine
end

section
/-!
The errors of SAMPLE, COEF and FLUSH, each with its condition (60_exceptions.md R304, R305, R307).
-/

namespace Sys2Proof.Machine

theorem exec_flush_of_ne_error {s : State} (h : s.st ≠ .error) : exec .flush s = .next (doFlush s) := by
  rw [exec_eq_next, nextState, unlessError_of_ne h]

theorem exec_elementInstr_of_ne_error {s : State} (h : s.st ≠ .error) (k : BlockKind) (d : Data) :
    exec (elementInstr k d) s = .next (doWrite Config.core k d s) := by
  rw [exec_eq_next]
  cases k <;> exact congrArg _ (unlessError_of_ne h)

section
variable {s : State}

theorem doWrite_of_ne_active (h : s.st ≠ .active) (cfg : Config) (k : BlockKind) (d : Data) :
    doWrite cfg k d s = raiseError .seq s := if_pos h

theorem doFlush_of_ne_active (h : s.st ≠ .active) : doFlush s = raiseError .seq s := if_pos h

theorem doWrite_of_other_kind (hst : s.st = .active) (hfill : s.fill ≠ 0) {k : BlockKind}
    (hk : k ≠ s.bmode) (cfg : Config) (d : Data) : doWrite cfg k d s = raiseError .mix s := by
  rw [doWrite, if_neg (not_not.mpr hst), if_pos ⟨hfill, hk⟩]

theorem doFlush_of_fill_ne (hst : s.st = .active) (hfill : s.fill ≠ 0) :
    doFlush s = raiseError .partialBlock s := by
  rw [doFlush, if_neg (not_not.mpr hst), if_pos hfill]

theorem doFlush_of_no_block (hst : s.st = .active) (hfill : s.fill = 0) (hblk : s.anyblk = false) :
    doFlush s = raiseError .empty s := by
  rw [doFlush, if_neg (not_not.mpr hst), if_neg (not_not.mpr hfill), if_pos hblk]

theorem not_open_of_idle_or_done (h : s.st = .idle ∨ s.st = .done) :
    s.st ≠ .error ∧ s.st ≠ .active := by
  obtain h | h := h <;> simp [h]

/-- No image is open in IDLE or DONE, so an element and FLUSH raise SEQ (R304). -/
theorem exec_elementInstr_seq (h : s.st = .idle ∨ s.st = .done) (k : BlockKind) (d : Data) :
    exec (elementInstr k d) s = .next (raiseError .seq s) := by
  obtain ⟨herr, hact⟩ := not_open_of_idle_or_done h
  rw [exec_elementInstr_of_ne_error herr, doWrite_of_ne_active hact]

theorem exec_flush_seq (h : s.st = .idle ∨ s.st = .done) :
    exec .flush s = .next (raiseError .seq s) := by
  obtain ⟨herr, hact⟩ := not_open_of_idle_or_done h
  rw [exec_flush_of_ne_error herr, doFlush_of_ne_active hact]

end

/-- Settles O16: each of the three commands asks first whether an image is open. -/
theorem seqErrorOutsideOpenImage : Obligations.SeqErrorOutsideOpenImage := by
  intro d i s hi hst
  obtain rfl | rfl | rfl := hi
  · exact exec_elementInstr_seq hst .sample d
  · exact exec_elementInstr_seq hst .coef d
  · exact exec_flush_seq hst

/-- Settles O8: an error each for no open image, a block begun, and no block encoded. -/
theorem flushErrorOrder : Obligations.FlushErrorOrder := by
  intro s
  have hactive (hst : s.st = .active) : exec .flush s = .next (doFlush s) :=
    exec_flush_of_ne_error (by simp [hst])
  refine ⟨exec_flush_seq, fun hst hfill => ?_, fun hst hfill hblk => ?_⟩
  · have hne : s.fill ≠ 0 := Fin.val_ne_zero_iff.mp (Nat.one_le_iff_ne_zero.mp hfill)
    rw [hactive hst, doFlush_of_fill_ne hst hne, raiseError]
  · rw [hactive hst, doFlush_of_no_block hst hfill hblk, raiseError]

/-- Settles O17: inside a block the other kind is refused, and a first element is stored with its own. -/
theorem mixErrorInsideBlock : Obligations.MixErrorInsideBlock := by
  intro kind d s hst
  refine ⟨fun hfill hk => ?_, fun hfill => ?_⟩
  · rw [exec_elementInstr_of_active hst, doWrite_of_other_kind hst hfill hk, raiseError]
  · obtain ⟨-, hexec⟩ := exec_elementInstr_stores (k := kind) d hst (.inl hfill) (by simp [hfill])
    exact ⟨_, hexec, hst, rfl, by simp [hfill]⟩

end Sys2Proof.Machine
end

section
/-!
The ERROR state: what enters it, what it ignores, what leaves it, and the levels that show it
(60_exceptions.md R303, R309, R310, R312).
-/

namespace Sys2Proof.Machine

/-- A command or an illegal word that enters ERROR has raised an error and done nothing else (R303). -/
theorem CommandEffect.eq_raiseError {s t : State} {o : Option Instr} (h : CommandEffect s o t)
    (hs : s.st ≠ .error) (ht : t.st = .error) : ∃ e, e ≠ .noError ∧ t = raiseError e s := by
  cases h with
  | started => simp at ht
  | nop => exact absurd ht hs
  | ignored herr => exact absurd herr hs
  | raised _ _ _ he => exact ⟨_, he, rfl⟩
  | stored => exact absurd ht hs
  | encoded k d _ bits =>
    exact absurd ((samePackerFrame_st (packBits_frame (storeElement k d s) bits)).symm.trans ht) hs
  | flushed => simp at ht

theorem nextState_of_error {s : State} (hst : s.st = .error) {i : Instr} (hi : i ≠ .start) :
    nextState i s = s :=
  ((nextState_effect i s).of_error hst).resolve_left fun ⟨ho, _⟩ => hi (Option.some.inj ho)

theorem acceptState_of_st_error {s : State} (hst : s.st = .error) {w : Word}
    (hw : w ≠ 0x10000000#32) : acceptState w s = s :=
  ((acceptState_effect w s).of_error hst).resolve_left fun ⟨ho, _⟩ =>
    hw (eq_encode_of_toOption_decode ho)

/-- Settles O18: of the things a command can do in ERROR, every one but START's is nothing. -/
theorem errorIgnoresAllButStart : Obligations.ErrorIgnoresAllButStart := by
  intro s hst
  refine ⟨fun i hi => ?_, fun w hw => ?_, ⟨doStart s, exec_eq_next .start s, rfl, rfl⟩, rfl, rfl⟩
  · rw [exec_eq_next, nextState_of_error hst hi]
  · rw [acceptWord_eq_next, acceptState_of_st_error hst hw]

theorem doneOut_iff {s : State} : doneOut s = true ↔ s.st = .done := decide_eq_true_iff

theorem errOut_iff {s : State} : errOut s = true ↔ s.st = .error := decide_eq_true_iff

/-- Settles O20: the command's or the word's effect is the raised error, and STATUS shows its fields. -/
theorem errorLeavesRestUnchanged : Obligations.ErrorLeavesRestUnchanged := by
  intro s t hs ht
  obtain ⟨hstate, -, -, hcode, -⟩ := statusWord_fields false t
  refine ⟨fun i hexec => ?_, fun w haccept => ?_, errOut_iff.mpr ht, ?_, hcode⟩
  · obtain rfl := exec_next_iff.mp hexec
    obtain ⟨e, he, heq⟩ := (nextState_effect i s).eq_raiseError hs ht
    rw [heq]
    exact ⟨rfl, he⟩
  · rw [acceptWord_eq_next] at haccept
    cases haccept
    obtain ⟨e, he, heq⟩ := (acceptState_effect w s).eq_raiseError hs ht
    rw [heq]
    exact ⟨rfl, he⟩
  · exact hstate.trans (by rw [ht]; rfl)

/-- Settles O60: only what changes the image state can end a level, and in ERROR that is START's word or
an edge of reset. -/
theorem doneAndErrorLevels : Obligations.DoneAndErrorLevels := by
  refine ⟨fun s => ⟨doneOut_iff, errOut_iff⟩, fun s t hexec => ?_, fun s => ⟨rfl, rfl⟩,
    fun s t hstep => ⟨fun herr => ?_, fun hdone => ?_⟩⟩
  · obtain rfl := exec_next_iff.mp hexec
    exact ⟨rfl, rfl⟩
  · obtain ⟨hst, -⟩ | ⟨rest, hq, hq', -⟩ | ⟨hreset, -⟩ :=
      errorHeldUntilStartOrReset s t (errOut_iff.mp herr) hstep
    · exact .inl (errOut_iff.mpr hst)
    · exact .inr (.inl ⟨rest, hq, hq'⟩)
    · exact .inr (.inr hreset)
  · have hst := doneOut_iff.mp hdone
    by_cases hsame : t.st = s.st
    · exact .inl (doneOut_iff.mpr (hsame.trans hst))
    obtain ⟨hreset, -⟩ | ⟨w, rest, hq, hq', hword⟩ := imageStateChangers s t hstep hsame
    · exact .inr (.inr (.inr hreset))
    obtain ⟨rfl, -⟩ | ⟨-, hactive, -⟩ | ⟨-, -, -, herr, -⟩ := hword
    · exact .inr (.inr (.inl ⟨rest, hq, hq'⟩))
    · simp [hst] at hactive
    · exact .inr (.inl (errOut_iff.mpr herr))

end Sys2Proof.Machine
end

section
/-!
R306's remark that a SAMPLE block never fails does not hold of images that mix kinds (log 19).
-/

namespace Sys2Proof.Machine

/-- The commands of a COEF block that is zero but for its DC coefficient. -/
def dcOnlyBlock (dc : Data) : List Instr := .coef dc :: List.replicate 63 (.coef 0)

/-- An image of two COEF blocks, whose DC coefficients rise to 2048 by differences of 1 and 2047, and all
but the last element of a SAMPLE block of zeros. -/
def mixedImage : List Instr :=
  .start :: dcOnlyBlock 1 ++ dcOnlyBlock 2048 ++ List.replicate 63 (.sample 0)

/-- The state after commands sent one after another. -/
def afterCommands (is : List Instr) (s : State) : State := is.foldl (fun t i => nextState i t) s

theorem afterCommands_inv (is : List Instr) {s : State} (h : s.Inv) : (afterCommands is s).Inv := by
  induction is generalizing s with
  | nil => exact h
  | cons i is ih => exact ih ((nextState_effect i s).inv h)

/-- The state in which `mixedImage` leaves the core after reset. -/
def zerosAfterLargeDC : State :=
  { State.reset with
    st := .active
    fill := 63
    anyblk := true
    prevDC := 2048
    byteCount := 5
    blockCount := 2
    outq := [0x5A, 0xFF, 0x00, 0x7F, 0xFA] }

/-- The state is one a run reaches, which is what makes R306's remark false of the core. -/
theorem afterCommands_mixedImage : afterCommands mixedImage State.reset = zerosAfterLargeDC := by
  decide +kernel

theorem zerosAfterLargeDC_inv : zerosAfterLargeDC.Inv :=
  afterCommands_mixedImage ▸ afterCommands_inv mixedImage invariantAtReset

theorem zerosAfterLargeDC_quantized :
    quantizedBlock Config.core .sample (zerosAfterLargeDC.buf.set 63 0) = fun _ => 0 := by
  have hbuf : zerosAfterLargeDC.buf.set 63 0 = Vector.replicate 64 0 := Vector.set_replicate_self
  rw [hbuf]
  exact funext core_zero_block

/-- The block's DC coefficient is 0, and the difference 0 − 2048 has category 12 (R199). -/
theorem exec_sample_zerosAfterLargeDC :
    exec (.sample 0) zerosAfterLargeDC = .next (raiseError .dcCat zerosAfterLargeDC) := by
  have hcat : 11 < cat (0 - zerosAfterLargeDC.prevDC.toInt) := by decide
  exact exec_last_of_refused (k := .sample) rfl rfl rfl zerosAfterLargeDC_quantized
    (entropyCheck_zigzag_dcCat hcat)

/-- Refutes O15: after a COEF block with DC coefficient 2048 the last zero of a SAMPLE block raises
DC_CAT. -/
theorem not_sampleBlockNeverRaisesCategoryError :
    ¬ Obligations.SampleBlockNeverRaisesCategoryError := by
  intro h
  have hactive := h 0 zerosAfterLargeDC _ zerosAfterLargeDC_inv rfl rfl rfl
    exec_sample_zerosAfterLargeDC
  simp at hactive

end Sys2Proof.Machine
end
